-- ==== Sys2Proof/Word.lean ====
section
/-! DEFINITION. The word types of the block: a byte and a 4-bit palette index (spec 30_encoding.md R50, R56). -/

namespace Sys2Proof

/-- One byte, the only access width of the block (R34, R35). -/
abbrev Byte := BitVec 8

/-- A palette index, format F-NIB (R56). -/
abbrev Nib := BitVec 4

end Sys2Proof
end

