-- ==== Sys2Proof/Config.lean ====
section
/-! DEFINITION. What an implementation fixes: the constants of 00_scope.md R5 and the two open palette levels of R6. -/

namespace Sys2Proof.Config

/-- SRC_LEN, bytes of the screen dump (R5). -/
@[simp] def srcLen : Nat := 6912
/-- BITMAP_LEN, bytes of the bitmap region (R5, R31). -/
@[simp] def bitmapLen : Nat := 6144
/-- ATTR_LEN, bytes of the attribute region (R5, R31). -/
@[simp] def attrLen : Nat := 768
/-- ROWS, pixel rows (R5). -/
@[simp] def rows : Nat := 192
/-- COLS, strips of a row (R5). -/
@[simp] def cols : Nat := 32
/-- BANDS, attribute row-bands of 8 pixel rows (R5). -/
@[simp] def bands : Nat := 24
/-- WIDTH_PX, pixels of a row (R5). -/
@[simp] def widthPx : Nat := 256
/-- ROW_BYTES, output bytes of a row (R5). -/
@[simp] def rowBytes : Nat := 128
/-- STRIP_BYTES, output bytes of a strip (R5). -/
@[simp] def stripBytes : Nat := 4
/-- PAL_ENTRIES, palette entries (R5). -/
@[simp] def palEntries : Nat := 16
/-- ATTR_BASE, first SRC address of the attribute region (R5, R31). -/
@[simp] def attrBase : Nat := 6144
/-- FLIP_TOP, the last row, constant of the row flip (R5, R70). -/
@[simp] def flipTop : Nat := 191
/-- HDR_LEN, header bytes (R5). -/
@[simp] def hdrLen : Nat := 54
/-- PAL_LEN, palette bytes (R5). -/
@[simp] def palLen : Nat := 64
/-- PIX_OFFSET, position of the first pixel-data byte (R5). -/
@[simp] def pixOffset : Nat := 118
/-- PIX_LEN, pixel-data bytes (R5). -/
@[simp] def pixLen : Nat := 24576
/-- FILE_LEN, total output bytes (R5). -/
@[simp] def fileLen : Nat := 24694

/-- LVL_N less one: free, nothing in Lean knows its value; R6 bounds LVL_N by 1 to 255 (log 4). -/
opaque lvlNLessOne : Fin 255
/-- LVL_B less one: free, and unrelated to LVL_N (R6, U4; log 4). -/
opaque lvlBLessOne : Fin 255

/-- What ATTR holds after the n-th RESET, power-on being the 0th, until a step writes it: unspecified, so free (R14, R22,
R127; log 5). -/
opaque unwrittenAttr : Nat → Byte
/-- What PIX holds after the n-th RESET until a step writes it: unspecified, so free (R15, R22, R127; log 5). -/
opaque unwrittenPix : Nat → Byte

/-- LVL_N, the level of a lit channel at normal brightness, an open parameter 1 to 255 (R6, R113). -/
def lvlN : Byte := BitVec.ofNat 8 (lvlNLessOne.val + 1)
/-- LVL_B, the level of a lit channel at bright, an open parameter 1 to 255 (R6, R113). -/
def lvlB : Byte := BitVec.ofNat 8 (lvlBLessOne.val + 1)

end Sys2Proof.Config
end

