-- ==== Sys2Proof/Syntax.lean ====
section
/-! DEFINITION. The thirteen operations, one constructor per row of spec/opcode_table.json (30_encoding.md R62). -/

namespace Sys2Proof

/-- An operation with the operands its row carries. The sequencer steps have no operand of their own:
they read (PHASE, IDX), which is the program counter (10_state.md R12). -/
inductive Instr where
  /-- FLIP k: file row to screen row (R70). -/
  | flip (k : BitVec 8)
  /-- INTERLEAVE y: the bit rearrangement of the row number (R71). -/
  | interleave (y : BitVec 8)
  /-- AT y, ax: the SRC address of a strip's pixel byte (R72). -/
  | translate (y : BitVec 8) (ax : BitVec 5)
  /-- ATTROFF y, ax: the attribute-region offset of a strip (R73). -/
  | attrOff (y : BitVec 8) (ax : BitVec 5)
  /-- CM attr: attribute byte to ink and paper (R80). -/
  | colorMap (attr : Byte)
  /-- PACK pix, ink, paper, i: one output byte (R92). -/
  | pack (pix : Byte) (ink paper : Nib) (i : BitVec 2)
  /-- EMIT.HDR: one header byte (R115). -/
  | emitHdr
  /-- EMIT.PAL: one palette byte (R116). -/
  | emitPal
  /-- EMIT.PIX: one byte of pixel data (R101). -/
  | emitPix
  /-- END: close the run (R117). -/
  | endRun
  /-- START LEN: begin a run (R126). -/
  | start (len : Nat)
  /-- RESET: return to the reset state; `s` is the ignored start bit of the command word 1s (R61, R127). -/
  | reset (s : BitVec 1)
  /-- NOP: nothing (R128). -/
  | nop
  deriving DecidableEq, Repr

end Sys2Proof
end

