-- ==== Sys2Proof/WellFormed.lean ====
section
/-! DEFINITION. Which operations the spec gives a meaning as operands: rows 0 to 191 (30_encoding.md R53, R64). -/

namespace Sys2Proof

/-- A row number inside the domain 0 to 191 of FLIP, INTERLEAVE, AT and ATTROFF (R64, R70 to R73). -/
def rowOk (y : BitVec 8) : Bool := decide (y.toNat ≤ 191)

/-- The operands lie in the domains the spec gives. Columns are 5 bits, so 0 to 31 by type; every
attribute byte, pixel byte, index and LEN is legal (R51, R52, R126). -/
def Instr.wellFormed : Instr → Bool
  | .flip k => rowOk k
  | .interleave y => rowOk y
  | .translate y _ => rowOk y
  | .attrOff y _ => rowOk y
  | .colorMap _ => true
  | .pack _ _ _ _ => true
  | .emitHdr => true
  | .emitPal => true
  | .emitPix => true
  | .endRun => true
  | .start _ => true
  | .reset _ => true
  | .nop => true

end Sys2Proof
end

