-- ==== Sys2Proof/Decode.lean ====
section
/-! DEFINITION. The words of the operations (30_encoding.md R50 to R63): decoder, encoder, and the table's words.
The block fetches no instructions, so a word means something only in the SPACE it is presented in: the
operand wires of one function unit, the PHASE code, or the host command word (R62). -/

namespace Sys2Proof

/-- The six function units, wired and not selected by any code (R62). -/
inductive FnUnit where
  | flip | interleave | translate | attrOff | colorMap | pack
  deriving DecidableEq, Repr

/-- Where a word is presented (the column "space" of opcode_table.json). -/
inductive Space where
  /-- the operand wires of one function unit -/
  | wired (u : FnUnit)
  /-- the 2-bit PHASE code, which selects the sequencer step -/
  | phase
  /-- the 2-bit host command word CMD, with LEN beside it -/
  | cmd
  deriving DecidableEq, Repr

/-- Why bytes are no operation of their space. -/
inductive DecodeError where
  /-- more or fewer bytes than the one length of the space's word (R65) -/
  | wrongLength
  /-- a bit above the word's width is set -/
  | bitsAboveWord
  /-- a row number 192 to 255, outside the domain (R64) -/
  | rowOutsideDomain (row : BitVec 8)
  deriving DecidableEq, Repr

/-- The sequencer step a PHASE code selects; total (R62). -/
def decodePhase (p : BitVec 2) : Instr :=
  if p = 0#2 then .emitHdr
  else if p = 1#2 then .emitPal
  else if p = 2#2 then .emitPix
  else .endRun

/-- The host command of a command word; RESET wins over START (R61). LEN is read by START only (R125). -/
def decodeCmd (c : BitVec 2) (len : Nat) : Instr :=
  if c = 0#2 then .nop
  else if c = 1#2 then .start len
  else .reset (c.extractLsb' 0 1)

/-- LEN as a number, its least significant byte first (layout of the model, log 10). -/
def natOfBytes : List Byte → Nat
  | [] => 0
  | b :: bs => b.toNat + 256 * natOfBytes bs

/-- The bytes of a number below 256 ^ fuel, least significant first, without leading zeros. -/
def bytesOfNatAux : Nat → Nat → List Byte
  | 0, _ => []
  | fuel + 1, n => if n = 0 then [] else BitVec.ofNat 8 n :: bytesOfNatAux fuel (n / 256)

/-- The bytes of LEN, least significant first. -/
def bytesOfNat (n : Nat) : List Byte := bytesOfNatAux n n

/-- Accept an operation whose row operand is in the domain 0 to 191 (R64). -/
def withRow (y : BitVec 8) (i : Instr) : Except DecodeError Instr :=
  if rowOk y then .ok i else .error (.rowOutsideDomain y)

/-- The row part of a 13-bit F-COORD word held in two bytes, bits 12:5 (R53). -/
def coordRow (lo hi : Byte) : BitVec 8 := hi.extractLsb' 0 5 ++ lo.extractLsb' 5 3

/-- The column part of an F-COORD word, bits 4:0 (R53). -/
def coordCol (lo : Byte) : BitVec 5 := lo.extractLsb' 0 5

/-- The operand word of a function unit, in whole bytes, least significant byte first; PACK's separate
operands ink, paper and i follow the pixel byte, a byte each (log 10). -/
def decodeWired (u : FnUnit) (bs : List Byte) : Except DecodeError Instr :=
  match u, bs with
  | .flip, [k] => withRow k (.flip k)
  | .interleave, [y] => withRow y (.interleave y)
  | .translate, [lo, hi] =>
    if hi.toNat < 32 then withRow (coordRow lo hi) (.translate (coordRow lo hi) (coordCol lo))
    else .error .bitsAboveWord
  | .attrOff, [lo, hi] =>
    if hi.toNat < 32 then withRow (coordRow lo hi) (.attrOff (coordRow lo hi) (coordCol lo))
    else .error .bitsAboveWord
  | .colorMap, [a] => .ok (.colorMap a)
  | .pack, [pix, ink, paper, i] =>
    if ink.toNat < 16 ∧ paper.toNat < 16 ∧ i.toNat < 4 then
      .ok (.pack pix (ink.setWidth 4) (paper.setWidth 4) (i.setWidth 2))
    else .error .bitsAboveWord
  | _, _ => .error .wrongLength

/-- The decoder: total on any bytes of any space, refusing by name. -/
def decode (sp : Space) (bs : List Byte) : Except DecodeError Instr :=
  match sp, bs with
  | .wired u, bs => decodeWired u bs
  | .phase, [p] => if p.toNat < 4 then .ok (decodePhase (p.setWidth 2)) else .error .bitsAboveWord
  | .phase, _ => .error .wrongLength
  | .cmd, c :: len =>
    if c.toNat < 4 then .ok (decodeCmd (c.setWidth 2) (natOfBytes len)) else .error .bitsAboveWord
  | .cmd, [] => .error .wrongLength

/-- The space an operation's word is presented in (R62). -/
def Instr.space : Instr → Space
  | .flip _ => .wired .flip
  | .interleave _ => .wired .interleave
  | .translate _ _ => .wired .translate
  | .attrOff _ _ => .wired .attrOff
  | .colorMap _ => .wired .colorMap
  | .pack _ _ _ _ => .wired .pack
  | .emitHdr => .phase
  | .emitPal => .phase
  | .emitPix => .phase
  | .endRun => .phase
  | .start _ => .cmd
  | .reset _ => .cmd
  | .nop => .cmd

/-- The low byte of an F-COORD word: y[2:0] : ax (R53). -/
def coordLo (y : BitVec 8) (ax : BitVec 5) : Byte := y.extractLsb' 0 3 ++ ax

/-- The high byte of an F-COORD word: three zero bits : y[7:3] (R53). -/
def coordHi (y : BitVec 8) : Byte := 0#3 ++ y.extractLsb' 3 5

/-- The encoder: the bytes of an operation in its space, from the formats of R51 to R61. -/
def encode : Instr → List Byte
  | .flip k => [k]
  | .interleave y => [y]
  | .translate y ax => [coordLo y ax, coordHi y]
  | .attrOff y ax => [coordLo y ax, coordHi y]
  | .colorMap a => [a]
  | .pack pix ink paper i => [pix, 0#4 ++ ink, 0#4 ++ paper, 0#6 ++ i]
  | .emitHdr => [0x00#8]
  | .emitPal => [0x01#8]
  | .emitPix => [0x02#8]
  | .endRun => [0x03#8]
  | .start len => 0x01#8 :: bytesOfNat len
  | .reset s => [0#6 ++ 1#1 ++ s]
  | .nop => [0x00#8]

/-- The spaces in the order a table word is tried in: the select codes of the sequencer first, then the
wired units in the table's order, then CMD. The table's words of different spaces coincide (log 2). -/
def tableSpaces : List Space :=
  [.phase, .wired .flip, .wired .interleave, .wired .translate, .wired .attrOff, .wired .colorMap,
   .wired .pack, .cmd]

/-- A table word of nbits bits in whole bytes, the least significant first. -/
def tableBytes (nbits w : Nat) : List Byte :=
  (List.range ((nbits + 7) / 8)).map fun j => BitVec.ofNat 8 (w >>> (8 * j))

/-- Whether the bytes are a word of the space. -/
def decodes (sp : Space) (bs : List Byte) : Bool :=
  match decode sp bs with
  | .ok _ => true
  | .error _ => false

/-- The first space, in the order of tableSpaces, that the table word is a word of. -/
def tableSpace (nbits w : Nat) : Option Space :=
  tableSpaces.find? fun sp => decodes sp (tableBytes nbits w)

/-- The operation the decoder reads from a table word (log 2 says which, where rows share a word). -/
def decodeTableWord (nbits w : Nat) : Option Instr :=
  match tableSpace nbits w with
  | some sp => (decode sp (tableBytes nbits w)).toOption
  | none => none

end Sys2Proof
end

