-- ==== Sys2Proof/Machine/State.lean ====
section
/-! DEFINITION. The state of the block as plain data (10_state.md R10 to R23), its reset value, and the reasons a
step can stop. The block's own two faults (60_exceptions.md R135) are NEXT states with ST = FAULT, not Fault. -/

namespace Sys2Proof.Machine

/-- ST, the run state (R13, codes in Machine/Flags.lean). -/
inductive St where
  /-- 0: reset, waiting for START -/
  | idle
  /-- 1: a run is in progress -/
  | run
  /-- 2: the run completed -/
  | done
  /-- 3: the run stopped on a fault -/
  | fault
  deriving DecidableEq, Repr

/-- PHASE, half of the program counter (R12, R13). -/
inductive Phase where
  /-- 0: header bytes -/
  | hdr
  /-- 1: palette bytes -/
  | pal
  /-- 2: pixel data -/
  | pix
  /-- 3, END: nothing left to emit -/
  | fin
  deriving DecidableEq, Repr

/-- CAUSE, the fault record (R13, R136). -/
inductive Cause where
  /-- 0: no fault since the last START or RESET -/
  | none
  /-- 1: START with LEN < 6912 (R137) -/
  | inputLength
  /-- 2: the sink refused a byte (R138) -/
  | writeError
  /-- 3: reserved, never written by the hardware (R64) -/
  | reserved
  deriving DecidableEq, Repr

/-- SRC as the locations that hold a value, address and byte, addresses strictly rising (R18, R22).
A location not listed holds no value (log 6). -/
abbrev Memory := List Host.Cell

/-- One entry of what the outside does to the block, one entry a step (R125, R130; log 1). -/
inductive HostInput where
  /-- CMD and LEN as sampled between two steps (R61, R125) -/
  | command (cmd : BitVec 2) (len : Nat)
  /-- the host writes SRC through its write port (R125) -/
  | srcWrite (addr : BitVec 13) (b : Byte)
  /-- a sink is prepared that refuses the bytes at these positions (R157 step 4; log 24) -/
  | prepareSink (fails : List Nat)
  /-- a test bench puts an operand word on a function unit's wires (the model's own; log 9) -/
  | unit (u : FnUnit) (word : List Byte)
  deriving DecidableEq, Repr

/-- What a function unit shows on its output wires (R62, column "result"; the model's own record, log 8). -/
inductive UnitOut where
  /-- FLIP: the screen row -/
  | screenRow (y : BitVec 8)
  /-- INTERLEAVE: the line number in the bitmap region -/
  | line (m : BitVec 8)
  /-- AT: the offset F-BOFF -/
  | bitmapOffset (a : BitVec 13)
  /-- ATTROFF: the offset F-AOFF -/
  | attrOffset (a : BitVec 10)
  /-- CM: the two indices -/
  | indices (ink paper : Nib)
  /-- PACK: the output byte F-PAIR -/
  | pair (b : Byte)
  deriving DecidableEq, Repr

/-- The fetch of one strip: file row K and column AX, and the two bytes SRC gave (R102; the model's own record, log 26). -/
structure Fetch where
  /-- K, the file row -/
  k : BitVec 8
  /-- AX, the column -/
  ax : BitVec 5
  /-- the attribute byte read -/
  attr : Byte
  /-- the pixel byte read -/
  pix : Byte
  deriving DecidableEq, Repr

/-- The machine. The first eight fields are the block's state, all of it (R10); inputs and sinkFails hold what its
surroundings will do; the last three are the model's own: unitOut and fetched are records that nothing reads, and resets
numbers the free values of the latches. -/
structure State where
  /-- ST (R13) -/
  st : St
  /-- PHASE (R12, R13) -/
  phase : Phase
  /-- IDX, bytes emitted so far in the phase (R11) -/
  idx : BitVec 15
  /-- CAUSE (R13, R136) -/
  cause : Cause
  /-- ATTR, the attribute latch (R14); a free value from a reset until it is written (R22; log 5) -/
  attr : Byte
  /-- PIX, the pixel latch (R15); a free value from a reset until it is written (R22; log 5) -/
  pix : Byte
  /-- SRC (R18) -/
  src : Memory
  /-- OUT, the bytes the sink has accepted, oldest first (R19) -/
  out : List Byte
  /-- what the host does next, one entry a step; when empty, CMD = 00 (R61, R125; log 1) -/
  inputs : List HostInput
  /-- SinkAnswer: the positions whose byte the sink refuses (R6, R37; log 3) -/
  sinkFails : List Nat
  /-- the result last shown on a function unit's output wires (the model's own; log 8) -/
  unitOut : Option UnitOut
  /-- the last fetch of a strip since reset (the model's own; log 26) -/
  fetched : Option Fetch
  /-- how many RESETs there have been since power-on (the model's own; log 5) -/
  resets : Nat
  deriving DecidableEq, Repr

/-- Reasons the model stops on an access the spec says does not exist. -/
inductive Fault where
  /-- An SRC address 6912 to 8191, which names no location (R18, R31, R36). Raised by MemRead and by the host's
  SRC write. Safe: the spec gives such an access no effect, and no rule produces it for a read. -/
  | noSuchAddress (addr : Nat)
  deriving DecidableEq, Repr

/-- Reasons the model refuses. Every one but the first is a refusal the spec itself asks for or an
operation that is not selected; each is safe, since the model stops where nothing is stated. -/
inductive Refusal where
  /-- No meaning yet; raised by no arm of exec as it stands. Safe. -/
  | notModelled (mnemonic : String)
  /-- FLIP, INTERLEAVE, AT or ATTROFF, and a step that uses one, on a row 192 to 255: "refused" (R64, R70 to R73,
  U1). Safe. -/
  | rowOutsideDomain (row : BitVec 8)
  /-- MemRead of a location the host has not written since reset: "refuse the run" (R36, U9). Safe. -/
  | srcHoldsNoValue (addr : Nat)
  /-- An emitting step with IDX outside its phase's range: no meaning given (R64, U10). Safe, and unreachable
  from reset. -/
  | idxOutsidePhase
  /-- A sequencer step given to exec in a state whose ST and PHASE do not select it (R62). Safe: step never
  does so. -/
  | notSelected
  /-- The host writes SRC while ST = RUN: no source defines the result, "refuse" (R158, U6). Safe. -/
  | srcWriteDuringRun
  /-- A test bench's bytes are no operand word of the function unit (R64, R65). Safe. -/
  | undecodable (e : DecodeError)
  deriving DecidableEq, Repr

/-- What a partial operation of the model answers: a value, or one of the two stops. -/
abbrev Result (α : Type) := Host.Outcome α Fault Refusal

/-- The state after power-on, which is a RESET (R22, R155, R156). OUT empty, no host input, a sink that accepts
everything and no unit result are the model's values (logs 1, 3, 7, 8). -/
def State.reset : State where
  st := .idle
  phase := .hdr
  idx := 0#15
  cause := .none
  attr := Config.unwrittenAttr 0
  pix := Config.unwrittenPix 0
  src := []
  out := []
  inputs := []
  sinkFails := []
  unitOut := none
  fetched := none
  resets := 0

end Sys2Proof.Machine
end

