-- ==== Sys2Proof/Machine/Operands.lean ====
section
/-! DEFINITION. The views of (PHASE, IDX): every operand a sequencer step reads (10_state.md R11, 30_encoding.md R59, R63). -/

namespace Sys2Proof.Machine

/-- K, the file row, `IDX[14:7]` (R11). -/
def State.k (s : State) : BitVec 8 := s.idx.extractLsb' 7 8

/-- AX, the column of the strip, `IDX[6:2]` (R11). -/
def State.ax (s : State) : BitVec 5 := s.idx.extractLsb' 2 5

/-- I, the group within the strip, `IDX[1:0]` (R11). -/
def State.i (s : State) : BitVec 2 := s.idx.extractLsb' 0 2

/-- E, the palette entry, `IDX[5:2]` (R11). -/
def State.e (s : State) : BitVec 4 := s.idx.extractLsb' 2 4

/-- C, the channel within the palette entry, `IDX[1:0]` (R11). -/
def State.c (s : State) : BitVec 2 := s.idx.extractLsb' 0 2

/-- POS, the position of the next byte of OUT, from (PHASE, IDX) (R11). -/
def State.pos (s : State) : Nat :=
  match s.phase with
  | .hdr => s.idx.toNat
  | .pal => Config.hdrLen + s.idx.toNat
  | .pix => Config.pixOffset + s.idx.toNat
  | .fin => Config.fileLen

end Sys2Proof.Machine
end

