-- ==== Sys2Proof/Machine/Ops.lean ====
section
/-! DEFINITION. The named operations every meaning is made of: SRC, the sink, Emit, the advance of (PHASE, IDX),
fault entry and the reset that is the only way out of a fault. -/

namespace Sys2Proof.Machine

/-- Sequence a partial operation: its value goes on, its stop stops. -/
def andThen {α β : Type} (x : Result α) (f : α → Result β) : Result β :=
  match x with
  | .next a => f a
  | .fault r => .fault r
  | .refused r => .refused r

/-! ### SRC (10_state.md R18, 20_memory.md R30, R31, R36) -/

/-- The byte a location holds, none where the host has written nothing since reset (R22, R36). -/
def Memory.lookup : Memory → Nat → Option Byte
  | [], _ => none
  | (k, b) :: m, a => if a = k then some b else Memory.lookup m a

/-- The host's write of one location, keeping the addresses strictly rising. -/
def Memory.insert : Memory → Nat → Byte → Memory
  | [], a, b => [(a, b)]
  | (k, c) :: m, a, b =>
    if a < k then (a, b) :: (k, c) :: m
    else if a = k then (a, b) :: m
    else (k, c) :: Memory.insert m a b

/-- The canonical form: addresses strictly rising and all of them locations of SRC. -/
def Memory.wf (m : Memory) : Bool :=
  decide (m.Pairwise fun x y => x.1 < y.1) && m.all fun x => decide (x.1 < Config.srcLen)

/-- MemRead(addr, 1): the byte the host last wrote there (R36). -/
def memRead (m : Memory) (addr : Nat) : Result Byte :=
  if addr < Config.srcLen then
    match m.lookup addr with
    | some b => .next b
    | none => .refused (.srcHoldsNoValue addr)
  else .fault (.noSuchAddress addr)

/-- The host's SRC write port (R125): usable only while ST is not RUN (R158, U6). -/
def hostWriteSrc (addr : BitVec 13) (b : Byte) (s : State) : Result State :=
  if s.st = .run then .refused .srcWriteDuringRun
  else if addr.toNat < Config.srcLen then .next { s with src := s.src.insert addr.toNat b }
  else .fault (.noSuchAddress addr.toNat)

/-! ### The ROMs (R20) -/

/-- RomRead(ROM, i): the constant byte at index i (R7). -/
def romRead (rom : List Byte) (i : Nat) : Result Byte :=
  match rom[i]? with
  | some b => .next b
  | none => .refused .idxOutsidePhase

/-! ### Faults (60_exceptions.md R136, R139) and reset (R127) -/

/-- Fault entry: CAUSE and ST are written and nothing else changes (R139). -/
def raise (c : Cause) (s : State) : State := { s with cause := c, st := .fault }

/-- RESET, the only way out of FAULT and DONE: OUT is not touched, no SRC location holds a value, and the latches get
values nothing is known of (R127, R140; log 5). -/
def resetCore (s : State) : State :=
  { s with
    st := .idle, phase := .hdr, idx := 0#15, cause := .none, src := []
    attr := Config.unwrittenAttr (s.resets + 1), pix := Config.unwrittenPix (s.resets + 1)
    fetched := none, resets := s.resets + 1 }

/-! ### Emit (R37) and the advance of the program counter (R12) -/

/-- SinkAnswer(pos) = accepted (R6, R37). -/
def State.sinkAccepts (s : State) (pos : Nat) : Bool := !(s.sinkFails.contains pos)

/-- Emit(b) and what follows it only if the byte was accepted: offer b at POS; append it and commit, or raise
WriteError with nothing else changed (R37, R138). -/
def emit (b : Byte) (commit : State → State) (s : State) : State :=
  if s.sinkAccepts s.pos then commit { s with out := s.out ++ [b] } else raise .writeError s

/-- The next position of (PHASE, IDX): the next IDX, or the next phase after the last index (R12). -/
def advance (last : Nat) (nextPhase : Phase) (s : State) : State :=
  if s.idx.toNat = last then { s with phase := nextPhase, idx := 0#15 } else { s with idx := s.idx + 1#15 }

/-- A sequencer step acts only when ST = RUN and PHASE selects it (R62), on an IDX of its phase's range (R11,
R64, U10). -/
def inPhase (p : Phase) (last : Nat) (s : State) (body : Result State) : Result State :=
  if s.st = .run ∧ s.phase = p then
    if s.idx.toNat ≤ last then body else .refused .idxOutsidePhase
  else .refused .notSelected

/-! ### Function units (R62) -/

/-- Record what a function unit shows on its output wires; no part of the block's state changes (log 8). -/
def showUnit (o : UnitOut) (s : State) : State := { s with unitOut := some o }

end Sys2Proof.Machine
end

