-- ==== Sys2Proof/Machine/Control.lean ====
section
/-! DEFINITION. The host commands START, RESET, NOP (45_control_operations.md R126 to R128). -/

namespace Sys2Proof.Machine

/-- An accepted START: OUT emptied, the run begins at (HDR, 0) (R126). -/
def beginRun (s : State) : State :=
  { s with out := [], phase := .hdr, idx := 0#15, cause := .none, st := .run }

/-- START LEN: acted on in IDLE only; a short LEN raises InputLength before anything is emitted (R126, R128). -/
def execStart (len : Nat) (s : State) : Result State :=
  if s.st ≠ .idle then .next s
  else if len < Config.srcLen then .next (raise .inputLength s)
  else .next (beginRun s)

/-- RESET, in every state; the start bit is ignored (R61, R127). -/
def execReset (_start : BitVec 1) (s : State) : Result State := .next (resetCore s)

/-- NOP: nothing (R128). -/
def execNop (s : State) : Result State := .next s

end Sys2Proof.Machine
end

