-- ==== Sys2Proof/Machine/Rom.lean ====
section
/-! DEFINITION. The two constant ROMs (44_bitmap_emitter.md R111 to R114). Their layout is the spec's own supply from
general knowledge (logs 17 and 18). -/

namespace Sys2Proof.Machine

/-- A header field of `size` bytes, least significant byte first (R33, R111). -/
def headerField (size value : Nat) : List Byte :=
  (List.range size).map fun j => BitVec.ofNat 8 (value >>> (8 * j))

/-- HDR_ROM, field by field as R111 lists them; R112 is the resulting 54 bytes. -/
def hdrRom : List Byte :=
  [0x42#8, 0x4D#8]
    ++ headerField 4 Config.fileLen ++ headerField 2 0 ++ headerField 2 0 ++ headerField 4 Config.pixOffset
    ++ headerField 4 40 ++ headerField 4 Config.widthPx ++ headerField 4 Config.rows ++ headerField 2 1 ++ headerField 2 4
    ++ headerField 4 0 ++ headerField 4 Config.pixLen ++ headerField 4 0 ++ headerField 4 0
    ++ headerField 4 0 ++ headerField 4 0

/-- level(e): LVL_B where the bright bit e[3] is set, else LVL_N (R113). -/
def palLevel (lvlN lvlB : Byte) (e : Nib) : Byte := if e.getLsbD 3 then lvlB else lvlN

/-- entry(e): blue e[0], green e[2], red e[1], reserved 0x00 (R57, R113). -/
def palEntry (lvlN lvlB : Byte) (e : Nib) : List Byte :=
  [if e.getLsbD 0 then palLevel lvlN lvlB e else 0x00#8,
   if e.getLsbD 2 then palLevel lvlN lvlB e else 0x00#8,
   if e.getLsbD 1 then palLevel lvlN lvlB e else 0x00#8,
   0x00#8]

/-- The palette bytes at two given levels: sixteen entries in index order (R114). -/
def palBytes (lvlN lvlB : Byte) : List Byte :=
  (List.range Config.palEntries).flatMap fun e => palEntry lvlN lvlB (BitVec.ofNat 4 e)

/-- PAL_ROM, at the open parameters LVL_N and LVL_B (R114; log 4). -/
def palRom : List Byte := palBytes Config.lvlN Config.lvlB

end Sys2Proof.Machine
end

