-- ==== Sys2Proof/Machine/Emitter.lean ====
section
/-! DEFINITION. The bitmap-header and palette emitter: EMIT.HDR, EMIT.PAL, END (44_bitmap_emitter.md R115 to R117). -/

namespace Sys2Proof.Machine

/-- EMIT.HDR: produce one header byte (R115). -/
def execEmitHdr (s : State) : Result State :=
  inPhase .hdr 53 s (andThen (romRead hdrRom s.idx.toNat) fun b => .next (emit b (advance 53 .pal) s))

/-- EMIT.PAL: produce one palette byte (R116). -/
def execEmitPal (s : State) : Result State :=
  inPhase .pal 63 s (andThen (romRead palRom s.idx.toNat) fun b => .next (emit b (advance 63 .pix) s))

/-- END: ST <- DONE, nothing emitted (R117). Its rule reads no IDX, so none is checked (log 12). -/
def execEndRun (s : State) : Result State :=
  if s.st = .run ∧ s.phase = .fin then .next { s with st := .done } else .refused .notSelected

end Sys2Proof.Machine
end

