-- ==== Sys2Proof/Machine/Mapper.lean ====
section
/-! DEFINITION. The attribute-byte colour mapper: CM (41_color_mapper.md R80). -/

namespace Sys2Proof.Machine

/-- The paper index: (attr >> 3) & 0x0F (R80). -/
def paperIndex (attr : Byte) : Nib := ((attr >>> 3) &&& 0x0F#8).setWidth 4

/-- The ink index: (attr & 0x07) | (paper & 0x08), the bright bit shared with paper (R80). -/
def inkIndex (attr : Byte) : Nib := (attr &&& 0x07#8).setWidth 4 ||| (paperIndex attr &&& 0x8#4)

/-- CM attr (R80). -/
def execColorMap (attr : Byte) (s : State) : Result State :=
  .next (showUnit (.indices (inkIndex attr) (paperIndex attr)) s)

end Sys2Proof.Machine
end

