-- ==== Sys2Proof/Machine/Packer.lean ====
section
/-! DEFINITION. The pixel-bit decoder and 4-bit packer: GROUP, SEL, PACK, STRIP (42_pixel_decoder_packer.md). -/

namespace Sys2Proof.Machine

/-- GROUP(pix, i) = (pix >> (2 * (3 - i))) & 0x03, most significant pair first (R90). -/
def group (pix : Byte) (i : BitVec 2) : BitVec 2 := ((pix >>> (2 * (3 - i.toNat))) &&& 0x03#8).setWidth 2

/-- SEL(bit, ink, paper): ink for 1, paper for 0, not complemented (R91). -/
def sel (bit : Bool) (ink paper : Nib) : Nib := if bit then ink else paper

/-- PACK(pix, ink, paper, i): the left pixel in the high nibble, the right in the low (R92). -/
def packByte (pix : Byte) (ink paper : Nib) (i : BitVec 2) : Byte :=
  sel ((group pix i).getLsbD 1) ink paper ++ sel ((group pix i).getLsbD 0) ink paper

/-- STRIP(pix, attr): the four output bytes of one strip (R93). -/
def strip (pix attr : Byte) : List Byte :=
  [packByte pix (inkIndex attr) (paperIndex attr) 0#2, packByte pix (inkIndex attr) (paperIndex attr) 1#2,
   packByte pix (inkIndex attr) (paperIndex attr) 2#2, packByte pix (inkIndex attr) (paperIndex attr) 3#2]

/-- PACK pix, ink, paper, i (R92). -/
def execPack (pix : Byte) (ink paper : Nib) (i : BitVec 2) (s : State) : Result State :=
  .next (showUnit (.pair (packByte pix ink paper i)) s)

end Sys2Proof.Machine
end

