-- ==== Sys2Proof/Machine/Translator.lean ====
section
/-! DEFINITION. The bit-interleaved address translator: FLIP, INTERLEAVE, AT, ATTROFF (40_address_translator.md). -/

namespace Sys2Proof.Machine

/-- Refuse a row 192 to 255 by name; the bit formula's value is not returned (R64, U1). -/
def onRow {α : Type} (y : BitVec 8) (v : α) : Result α :=
  if rowOk y then .next v else .refused (.rowOutsideDomain y)

/-- The bits of INTERLEAVE: y[7:6] : y[2:0] : y[5:3] (R71). -/
def interleaveBits (y : BitVec 8) : BitVec 8 :=
  y.extractLsb' 6 2 ++ y.extractLsb' 0 3 ++ y.extractLsb' 3 3

/-- FLIP(k) = 191 - k (R70). -/
def flipRow (k : BitVec 8) : Result (BitVec 8) := onRow k (BitVec.ofNat 8 Config.flipTop - k)

/-- INTERLEAVE(y) (R71). -/
def interleave (y : BitVec 8) : Result (BitVec 8) := onRow y (interleaveBits y)

/-- AT(y, ax) = (zext_13(INTERLEAVE(y)) << 5) | ax, no bit lost (R72, R8). -/
def bitmapOff (y : BitVec 8) (ax : BitVec 5) : Result (BitVec 13) :=
  andThen (interleave y) fun m => .next ((m.setWidth 13 <<< 5) ||| ax.setWidth 13)

/-- ATTROFF(y, ax) = ((y & 0xF8) << 2) + ax, no bit lost (R73, R8). -/
def attrOff (y : BitVec 8) (ax : BitVec 5) : Result (BitVec 10) :=
  onRow y (((y &&& 0xF8#8).setWidth 10 <<< 2) + ax.setWidth 10)

/-- ATTRADDR(y, ax) = 6144 + ATTROFF(y, ax) (R67, R73). -/
def attrAddr (y : BitVec 8) (ax : BitVec 5) : Result (BitVec 13) :=
  andThen (attrOff y ax) fun off => .next (BitVec.ofNat 13 Config.attrBase + off.setWidth 13)

/-- FLIP k (R70). -/
def execFlip (k : BitVec 8) (s : State) : Result State :=
  andThen (flipRow k) fun y => .next (showUnit (.screenRow y) s)

/-- INTERLEAVE y (R71). -/
def execInterleave (y : BitVec 8) (s : State) : Result State :=
  andThen (interleave y) fun m => .next (showUnit (.line m) s)

/-- AT y, ax (R72). -/
def execTranslate (y : BitVec 8) (ax : BitVec 5) (s : State) : Result State :=
  andThen (bitmapOff y ax) fun a => .next (showUnit (.bitmapOffset a) s)

/-- ATTROFF y, ax (R73). -/
def execAttrOff (y : BitVec 8) (ax : BitVec 5) (s : State) : Result State :=
  andThen (attrOff y ax) fun a => .next (showUnit (.attrOffset a) s)

end Sys2Proof.Machine
end

