-- ==== Sys2Proof/Machine/RowAssembler.lean ====
section
/-! DEFINITION. The row assembler: EMIT.PIX (43_row_assembler.md R101, R102). -/

namespace Sys2Proof.Machine

/-- The attribute byte of strip (y, ax), from SRC (R101). -/
def fetchAttr (src : Memory) (y : BitVec 8) (ax : BitVec 5) : Result Byte :=
  andThen (attrAddr y ax) fun a => memRead src a.toNat

/-- The pixel byte of strip (y, ax), from SRC (R101). -/
def fetchPix (src : Memory) (y : BitVec 8) (ax : BitVec 5) : Result Byte :=
  andThen (bitmapOff y ax) fun a => memRead src a.toNat

/-- The two bytes of the current strip: fetched at I = 0, the attribute byte first, else the latched copies
(R101, R102). -/
def stripBytes (s : State) : Result (Byte × Byte) :=
  if s.i = 0#2 then
    andThen (flipRow s.k) fun y =>
    andThen (fetchAttr s.src y s.ax) fun a =>
    andThen (fetchPix s.src y s.ax) fun p => .next (a, p)
  else .next (s.attr, s.pix)

/-- ATTR <- a; PIX <- p, at I = 0 only (R101); the fetch is recorded (log 26). -/
def latchStrip (a p : Byte) (s : State) : State :=
  if s.i = 0#2 then { s with attr := a, pix := p, fetched := some ⟨s.k, s.ax, a, p⟩ } else s

/-- The output byte of a strip's two bytes at group i: PACK on CM's outputs (R101). -/
def pixelByte (a p : Byte) (i : BitVec 2) : Byte := packByte p (inkIndex a) (paperIndex a) i

/-- EMIT.PIX: produce one byte of pixel data (R101). -/
def execEmitPix (s : State) : Result State :=
  inPhase .pix 24575 s
    (andThen (stripBytes s) fun ap =>
      .next (emit (pixelByte ap.1 ap.2 s.i) (fun t => advance 24575 .fin (latchStrip ap.1 ap.2 t)) s))

end Sys2Proof.Machine
end

