-- ==== Sys2Proof/Machine/Dispatch.lean ====
section
/-! DEFINITION. One arm per operation of spec/opcode_table.json. -/

namespace Sys2Proof.Machine

def exec (i : Instr) (s : State) : Host.Outcome State Fault Refusal :=
  match i with
  -- function units (40, 41, 42)
  | .flip k => Sys2Proof.Machine.execFlip k s
  | .interleave y => Sys2Proof.Machine.execInterleave y s
  | .translate y ax => Sys2Proof.Machine.execTranslate y ax s
  | .attrOff y ax => Sys2Proof.Machine.execAttrOff y ax s
  | .colorMap attr => Sys2Proof.Machine.execColorMap attr s
  | .pack pix ink paper g => Sys2Proof.Machine.execPack pix ink paper g s
  -- sequencer steps (43, 44)
  | .emitHdr => Sys2Proof.Machine.execEmitHdr s
  | .emitPal => Sys2Proof.Machine.execEmitPal s
  | .emitPix => Sys2Proof.Machine.execEmitPix s
  | .endRun => Sys2Proof.Machine.execEndRun s
  -- host commands (45)
  | .start len => Sys2Proof.Machine.execStart len s
  | .reset b => Sys2Proof.Machine.execReset b s
  | .nop => Sys2Proof.Machine.execNop s

end Sys2Proof.Machine
end

