-- ==== Sys2Proof/Machine/Flags.lean ====
section
/-! DEFINITION. The codes of the status fields, the status word and the two level outputs (10_state.md R13,
30_encoding.md R60, 45_control_operations.md R125). The block has no condition codes (R16). -/

namespace Sys2Proof.Machine

/-- The 2-bit code of ST (R13, R60). -/
def St.code : St → BitVec 2
  | .idle => 0#2
  | .run => 1#2
  | .done => 2#2
  | .fault => 3#2

/-- The 2-bit code of PHASE (R13, R60). -/
def Phase.code : Phase → BitVec 2
  | .hdr => 0#2
  | .pal => 1#2
  | .pix => 2#2
  | .fin => 3#2

/-- The PHASE of a 2-bit code; all four codes are used (R13). -/
def Phase.ofCode (p : BitVec 2) : Phase :=
  if p = 0#2 then .hdr else if p = 1#2 then .pal else if p = 2#2 then .pix else .fin

/-- The 2-bit code of CAUSE (R13, R136). -/
def Cause.code : Cause → BitVec 2
  | .none => 0#2
  | .inputLength => 1#2
  | .writeError => 2#2
  | .reserved => 3#2

/-- STATUS, the word the host reads: CAUSE : PHASE : ST (R13, R60). -/
def State.status (s : State) : BitVec 6 := s.cause.code ++ s.phase.code ++ s.st.code

/-- The level output DONE (R125, R142). -/
def State.doneLevel (s : State) : Bool := decide (s.st = .done)

/-- The level output FAULT (R125, R142). -/
def State.faultLevel (s : State) : Bool := decide (s.st = .fault)

end Sys2Proof.Machine
end

