-- ==== Sys2Proof/Machine/Fetch.lean ====
section
/-! DEFINITION. What selects the next operation (30_encoding.md R61, R62; 45_control_operations.md R128), and the
placing of a table word as the next one. -/

namespace Sys2Proof.Machine

/-- The operation the codes select: with CMD = 00 the sequencer step of PHASE while ST = RUN, else the host
command of CMD (R61, R62, R128). -/
def selectOp (cmd : BitVec 2) (len : Nat) (s : State) : Instr :=
  if cmd = 0#2 ∧ s.st = .run then decodePhase s.phase.code else decodeCmd cmd len

/-- What one entry of the outside's inputs asks of the machine. -/
inductive Request where
  /-- run this operation -/
  | op (i : Instr)
  /-- write SRC -/
  | write (addr : BitVec 13) (b : Byte)
  /-- take a new sink -/
  | sink (fails : List Nat)
  /-- a test bench's bytes that are no operand word -/
  | bad (e : DecodeError)
  deriving DecidableEq, Repr

/-- The next request; with no entry left CMD = 00 (R61; log 1). -/
def nextRequest (s : State) : Request :=
  match s.inputs with
  | [] => .op (selectOp 0#2 0 s)
  | .command cmd len :: _ => .op (selectOp cmd len s)
  | .srcWrite addr b :: _ => .write addr b
  | .prepareSink fails :: _ => .sink fails
  | .unit u word :: _ =>
    match decodeWired u word with
    | .ok i => .op i
    | .error e => .bad e

/-- The state with the entry just taken removed. -/
def consumeInput (s : State) : State := { s with inputs := s.inputs.tail }

/-- The state with a new sink (R157 step 4; log 24). -/
def withSink (fails : List Nat) (s : State) : State := { s with sinkFails := fails }

/-- Place bytes of a space so that the next step reads exactly them: a unit's operand word on its wires, a command
word on CMD with its LEN, a PHASE code in PHASE with ST = RUN and CMD = 00 (log 2). -/
def placeWord (sp : Space) (bs : List Byte) (s : State) : State :=
  match sp, bs with
  | .wired u, bs => { s with inputs := .unit u bs :: s.inputs }
  | .cmd, c :: len => { s with inputs := .command (c.setWidth 2) (natOfBytes len) :: s.inputs }
  | .phase, p :: _ =>
    { s with st := .run, phase := Phase.ofCode (p.setWidth 2), inputs := .command 0#2 0 :: s.inputs }
  | .cmd, [] => { s with inputs := .unit .flip [] :: s.inputs }
  | .phase, [] => { s with inputs := .unit .flip [] :: s.inputs }

/-- Place a table word; one that no space takes goes on FLIP's wires, where the step refuses it. -/
def placeTableWord (nbits w : Nat) (s : State) : State :=
  match tableSpace nbits w with
  | some sp => placeWord sp (tableBytes nbits w) s
  | none => placeWord (.wired .flip) (tableBytes nbits w) s

end Sys2Proof.Machine
end

