-- ==== Sys2Proof/Machine/Step.lean ====
section
/-! DEFINITION. One step: one entry of the outside's inputs, or the next sequencer step when none is left. -/

namespace Sys2Proof.Machine

/-- One atomic step (R38, R163): take the next request and do it. -/
def step (s : State) : Host.Outcome State Fault Refusal :=
  match nextRequest s with
  | .op i => exec i (consumeInput s)
  | .write addr b => hostWriteSrc addr b (consumeInput s)
  | .sink fails => .next (withSink fails (consumeInput s))
  | .bad e => .refused (.undecodable e)

/-- s with a table word where step reads its next operation (log 2). -/
def State.withFetchWord (s : State) (nbits w : Nat) : State := placeTableWord nbits w s

end Sys2Proof.Machine
end

