-- ==== Sys2Proof/Machine/ClosedForm.lean ====
section
/-! DEFINITION. The output as a function of SRC, without a machine: the closed forms of 43_row_assembler.md R103 and
44_bitmap_emitter.md R118, and the pseudo-operations ROW and FILE (30_encoding.md R67). -/

namespace Sys2Proof.Machine

/-- The pixel-data byte at index p: PACK of the strip's two bytes, k = p >> 7, ax = (p >> 2) & 31, i = p & 3
(R103). -/
def pixDataByte (src : Memory) (p : Nat) : Result Byte :=
  andThen (flipRow (BitVec.ofNat 8 (p >>> 7))) fun y =>
  andThen (fetchAttr src y (BitVec.ofNat 5 (p >>> 2))) fun a =>
  andThen (fetchPix src y (BitVec.ofNat 5 (p >>> 2))) fun b =>
    .next (pixelByte a b (BitVec.ofNat 2 p))

/-- OUT[n] of a completed run (R118). -/
def fileByte (src : Memory) (n : Nat) : Result Byte :=
  if n < Config.hdrLen then romRead hdrRom n
  else if n < Config.pixOffset then romRead palRom (n - Config.hdrLen)
  else pixDataByte src (n - Config.pixOffset)

/-- The palette index of the pixel at screen column x, screen row y (R103). -/
def pixelIndex (src : Memory) (x y : BitVec 8) : Result Nib :=
  andThen (fetchAttr src y (x.extractLsb' 3 5)) fun a =>
  andThen (fetchPix src y (x.extractLsb' 3 5)) fun b =>
    .next (sel (b.getLsbD (7 - x.toNat % 8)) (inkIndex a) (paperIndex a))

/-- Put lists of bytes one after another, stopping at the first that stops. -/
def joinAll : List (Result (List Byte)) → Result (List Byte)
  | [] => .next []
  | x :: xs => andThen x fun l => andThen (joinAll xs) fun ls => .next (l ++ ls)

/-- STRIP of the strip at screen row y, column ax (R67, R93). -/
def stripAt (src : Memory) (y : BitVec 8) (ax : BitVec 5) : Result (List Byte) :=
  andThen (fetchAttr src y ax) fun a => andThen (fetchPix src y ax) fun b => .next (strip b a)

/-- ROW k: the 32 strips of screen row 191 - k (R67, R103). -/
def rowBytes (src : Memory) (k : Nat) : Result (List Byte) :=
  andThen (flipRow (BitVec.ofNat 8 k)) fun y =>
    joinAll ((List.range Config.cols).map fun ax => stripAt src y (BitVec.ofNat 5 ax))

/-- FILE: HDR_ROM, then PAL_ROM, then ROW k for k = 0 to 191 (R67, R118). -/
def fileBytes (src : Memory) : Result (List Byte) :=
  andThen (joinAll ((List.range Config.rows).map (rowBytes src))) fun rows => .next (hdrRom ++ palRom ++ rows)

end Sys2Proof.Machine
end

