-- ==== Sys2Proof/Safety.lean ====
section
/-! DEFINITION. What claims are stated in: the invariants of 10_state.md R23, a loaded SRC, a sink that accepts. -/

namespace Sys2Proof.Machine

/-- IDX lies in the range of its phase (R11, R23). -/
def State.idxInRange (s : State) : Prop :=
  match s.phase with
  | .hdr => s.idx.toNat ≤ 53
  | .pal => s.idx.toNat ≤ 63
  | .pix => s.idx.toNat ≤ 24575
  | .fin => s.idx.toNat = 0

/-- ST and CAUSE agree (R23): a fault has cause 1 or 2, and nothing else has a cause. -/
def State.causeAgrees (s : State) : Prop :=
  (s.st = .fault → s.cause = .inputLength ∨ s.cause = .writeError) ∧ (s.st ≠ .fault → s.cause = .none)

/-- The bytes of OUT are counted by POS while a run is on, after it, and after a WriteError (R23). -/
def State.outCounted (s : State) : Prop :=
  (s.st = .run ∨ s.st = .done ∨ s.cause = .writeError) → s.out.length = s.pos

/-- IDLE waits at (HDR, 0); DONE stands at (END, 0) (R23). -/
def State.endpointsAgree (s : State) : Prop :=
  (s.st = .idle → s.phase = .hdr ∧ s.idx = 0#15) ∧ (s.st = .done → s.phase = .fin)

/-- In phase PIX inside a strip, ATTR and PIX hold the bytes fetched for the strip (Y, AX), whatever ST is (R23, R14,
R15); Y is FLIP of the recorded K. -/
def State.latchesHoldStrip (s : State) : Prop :=
  s.phase = .pix → s.i ≠ 0#2 → s.fetched = some ⟨s.k, s.ax, s.attr, s.pix⟩

/-- In a run inside a strip, SRC still holds the bytes that were fetched, since nobody writes it (R38 point 3). -/
def State.stripStandsInSrc (s : State) : Prop :=
  s.st = .run → s.phase = .pix → s.i ≠ 0#2 →
    ∃ y, flipRow s.k = .next y ∧ fetchAttr s.src y s.ax = .next s.attr ∧ fetchPix s.src y s.ax = .next s.pix

/-- The invariant of the machine: R23, and the canonical form of SRC. -/
structure State.Inv (s : State) : Prop where
  idxRange : s.idxInRange
  cause : s.causeAgrees
  counted : s.outCounted
  endpoints : s.endpointsAgree
  latches : s.latchesHoldStrip
  strip : s.stripStandsInSrc
  memory : s.src.wf = true

/-- Every location of SRC holds a value: the host's duty before START (R157 step 3). -/
def Memory.loaded (m : Memory) : Prop := ∀ a, a < Config.srcLen → (m.lookup a).isSome = true

/-- The premise of a completed run: the sink accepts at every position 0 to 24693 (R37, R118). -/
def State.sinkAcceptsAll (s : State) : Prop := ∀ n, n < Config.fileLen → s.sinkAccepts n = true

/-- What of the block's own state two states share when only its surroundings and the model's records differ (R10). -/
def State.sameCore (s t : State) : Prop :=
  t.st = s.st ∧ t.phase = s.phase ∧ t.idx = s.idx ∧ t.cause = s.cause ∧ t.attr = s.attr ∧ t.pix = s.pix ∧
    t.src = s.src ∧ t.out = s.out

/-- What no operation touches: what the host and the sink will do next (R10, R21). -/
def State.sameSurroundings (s t : State) : Prop := t.inputs = s.inputs ∧ t.sinkFails = s.sinkFails

end Sys2Proof.Machine
end

