-- ==== Sys2Proof/Certificates/Slice0/Obligations.lean ====
section
/-! DEFINITION. The statements for the provers, from the numbered rules of spec/. A statement that rests on a choice of
the model names its log entry. -/

open Sys2Proof Sys2Proof.Machine

/-! ### The address translator (40_address_translator.md) -/

/-- R70: on rows 0 to 191 FLIP(k) = 191 - k, its own inverse, 64 less than the bitwise complement; other rows are
refused. -/
def Obligations.FlipIsTheRowMirror : Prop :=
  ∀ k : BitVec 8,
    (k.toNat ≤ 191 → ∃ y, flipRow k = .next y ∧ y.toNat = 191 - k.toNat ∧ y.toNat + 64 = (~~~k).toNat ∧
      flipRow y = .next k) ∧
    (191 < k.toNat → flipRow k = .refused (.rowOutsideDomain k))

/-- R71: INTERLEAVE swaps y[2:0] and y[5:3], keeps y[7:6], is its own inverse, keeps every third, and fixes y exactly
when the two fields agree; other rows are refused. -/
def Obligations.InterleaveSwapsTheRowFields : Prop :=
  ∀ y : BitVec 8,
    (y.toNat ≤ 191 → ∃ m, interleave y = .next m ∧
      m.toNat = 64 * (y.toNat / 64) + 8 * (y.toNat % 8) + y.toNat / 8 % 8 ∧
      m = (y &&& 0xC0#8) ||| ((y &&& 0x07#8) <<< 3) ||| ((y >>> 3) &&& 0x07#8) ∧
      m.toNat ≤ 191 ∧ m.toNat / 64 = y.toNat / 64 ∧ interleave m = .next y ∧
      (m = y ↔ y.toNat % 8 = y.toNat / 8 % 8)) ∧
    (191 < y.toNat → interleave y = .refused (.rowOutsideDomain y))

/-- R72: AT(y, ax) = 2048*y[7:6] + 256*y[2:0] + 32*y[5:3] + ax, the bits y[7:6] : y[2:0] : y[5:3] : ax, inside 0 to
6143; other rows are refused. -/
def Obligations.TranslateGivesTheBitmapOffset : Prop :=
  ∀ (y : BitVec 8) (ax : BitVec 5),
    (y.toNat ≤ 191 → ∃ a, bitmapOff y ax = .next a ∧
      a.toNat = 2048 * (y.toNat / 64) + 256 * (y.toNat % 8) + 32 * (y.toNat / 8 % 8) + ax.toNat ∧
      a = y.extractLsb' 6 2 ++ y.extractLsb' 0 3 ++ y.extractLsb' 3 3 ++ ax ∧ a.toNat ≤ 6143) ∧
    (191 < y.toNat → bitmapOff y ax = .refused (.rowOutsideDomain y))

/-- R73: ATTROFF(y, ax) = 32*(y >> 3) + ax = y[7:3] : ax, inside 0 to 767, and ATTRADDR is 6144 more, the bits
110 : y[7:3] : ax; other rows are refused. -/
def Obligations.AttrOffGivesTheAttributeOffset : Prop :=
  ∀ (y : BitVec 8) (ax : BitVec 5),
    (y.toNat ≤ 191 → ∃ o a, attrOff y ax = .next o ∧ attrAddr y ax = .next a ∧
      o.toNat = 32 * (y.toNat / 8) + ax.toNat ∧ o = y.extractLsb' 3 5 ++ ax ∧ o.toNat ≤ 767 ∧
      a.toNat = 6144 + o.toNat ∧ a = 0b110#3 ++ y.extractLsb' 3 5 ++ ax) ∧
    (191 < y.toNat → attrOff y ax = .refused (.rowOutsideDomain y) ∧
      attrAddr y ax = .refused (.rowOutsideDomain y))

/-- R74 points 1 to 4: AT is a bijection onto 0 to 6143 with inverse (INTERLEAVE(a[12:5]), a[4:0]); ATTROFF takes every
value 0 to 767 on exactly the eight rows of one band; no AT result is an ATTRADDR result and none reaches 6912; the
32-byte line at 32*m holds screen row INTERLEAVE(m). -/
def Obligations.TranslationIsABijection : Prop :=
  (∀ a : BitVec 13, a.toNat ≤ 6143 → ∃ y, interleave (a.extractLsb' 5 8) = .next y ∧
    bitmapOff y (a.extractLsb' 0 5) = .next a) ∧
  (∀ (y y' : BitVec 8) (ax ax' : BitVec 5) (a : BitVec 13),
    bitmapOff y ax = .next a → bitmapOff y' ax' = .next a → y = y' ∧ ax = ax') ∧
  (∀ (o : BitVec 10) (y : BitVec 8) (ax : BitVec 5), o.toNat ≤ 767 →
    (attrOff y ax = .next o ↔ y.toNat / 8 = o.toNat / 32 ∧ ax.toNat = o.toNat % 32)) ∧
  (∀ (y y' : BitVec 8) (ax ax' : BitVec 5) (a b : BitVec 13),
    bitmapOff y ax = .next a → attrAddr y' ax' = .next b → a.toNat < b.toNat ∧ b.toNat < 6912) ∧
  (∀ (m : BitVec 8) (ax : BitVec 5), m.toNat ≤ 191 → ∃ y a, interleave m = .next y ∧ bitmapOff y ax = .next a ∧
    a.toNat = 32 * m.toNat + ax.toNat)

/-- R75: from the pixel address a of a strip, its attribute address is 110 : a[12:11] : a[7:5] : a[4:0]. -/
def Obligations.AttributeAddressFromPixelAddress : Prop :=
  ∀ (y : BitVec 8) (ax : BitVec 5) (a b : BitVec 13), bitmapOff y ax = .next a → attrAddr y ax = .next b →
    b = 0b110#3 ++ a.extractLsb' 11 2 ++ a.extractLsb' 5 3 ++ a.extractLsb' 0 5

/-- On rows 0 to 191 each translator operation completes: it shows its result on the unit's wires and changes nothing
else. The record unitOut is the model's own (log 8). -/
def Obligations.TranslatorUnitsComplete : Prop :=
  ∀ (s : State) (y : BitVec 8) (ax : BitVec 5), y.toNat ≤ 191 → ∃ f m a o,
    exec (.flip y) s = .next { s with unitOut := some (.screenRow f) } ∧ f.toNat = 191 - y.toNat ∧
    exec (.interleave y) s = .next { s with unitOut := some (.line m) } ∧
    m.toNat = 64 * (y.toNat / 64) + 8 * (y.toNat % 8) + y.toNat / 8 % 8 ∧
    exec (.translate y ax) s = .next { s with unitOut := some (.bitmapOffset a) } ∧
    a.toNat = 32 * m.toNat + ax.toNat ∧
    exec (.attrOff y ax) s = .next { s with unitOut := some (.attrOffset o) } ∧
    o.toNat = 32 * (y.toNat / 8) + ax.toNat

/-- R64: on rows 192 to 255 the four translator operations are refused by name. -/
def Obligations.TranslatorUnitsRefuseOtherRows : Prop :=
  ∀ (s : State) (y : BitVec 8) (ax : BitVec 5), 191 < y.toNat →
    exec (.flip y) s = .refused (.rowOutsideDomain y) ∧ exec (.interleave y) s = .refused (.rowOutsideDomain y) ∧
    exec (.translate y ax) s = .refused (.rowOutsideDomain y) ∧
    exec (.attrOff y ax) s = .refused (.rowOutsideDomain y)

/-! ### The colour mapper and the packer (41_color_mapper.md, 42_pixel_decoder_packer.md) -/

/-- R80, R81: paper = (attr >> 3) & 0x0F, ink = (attr & 7) | (paper & 8); both carry the bright bit; the flash bit enters
neither; two attribute bytes give the same pair exactly when they agree in bits 6:0. -/
def Obligations.ColorMapByFields : Prop :=
  (∀ attr : Byte,
    (paperIndex attr).toNat = attr.toNat / 8 % 16 ∧
    (inkIndex attr).toNat = 8 * (attr.toNat / 64 % 2) + attr.toNat % 8 ∧
    (paperIndex attr).toNat = 8 * (attr.toNat / 64 % 2) + attr.toNat / 8 % 8) ∧
  (∀ a b : Byte, inkIndex a = inkIndex b ∧ paperIndex a = paperIndex b ↔ a.toNat % 128 = b.toNat % 128)

/-- R90 to R92: PACK puts the pixel of bit 7-2i in the high nibble and that of bit 6-2i in the low, ink for 1 and paper
for 0. -/
def Obligations.PackPlacesTwoPixels : Prop :=
  ∀ (pix : Byte) (ink paper : Nib) (i : BitVec 2),
    group pix i = ((pix >>> (2 * (3 - i.toNat))) &&& 0x03#8).setWidth 2 ∧
    group pix i = pix.extractLsb' (6 - 2 * i.toNat) 2 ∧
    sel true ink paper = ink ∧ sel false ink paper = paper ∧
    (packByte pix ink paper i).toNat =
      16 * (if pix.getLsbD (7 - 2 * i.toNat) then ink else paper).toNat
        + (if pix.getLsbD (6 - 2 * i.toNat) then ink else paper).toNat

/-- R93, which the spec derives: STRIP is the four PACKs of a strip in order; its eight nibbles, high nibble first, are its
eight pixels from left to right. -/
def Obligations.StripIsEightPixels : Prop :=
  ∀ pix attr : Byte, ∃ c : Nat → Nib,
    (∀ j, j < 8 → c j = if pix.getLsbD (7 - j) then inkIndex attr else paperIndex attr) ∧
    strip pix attr = [c 0 ++ c 1, c 2 ++ c 3, c 4 ++ c 5, c 6 ++ c 7] ∧
    ∀ i : BitVec 2, (strip pix attr)[i.toNat]? = some (packByte pix (inkIndex attr) (paperIndex attr) i)

/-- CM on every byte and PACK on every operand complete: the result is shown on the unit's wires and nothing else
changes. The record unitOut is the model's own (log 8). -/
def Obligations.MapperAndPackerComplete : Prop :=
  ∀ (s : State) (attr pix : Byte) (ink paper : Nib) (i : BitVec 2), ∃ n p b,
    exec (.colorMap attr) s = .next { s with unitOut := some (.indices n p) } ∧
    n.toNat = 8 * (attr.toNat / 64 % 2) + attr.toNat % 8 ∧ p.toNat = attr.toNat / 8 % 16 ∧
    exec (.pack pix ink paper i) s = .next { s with unitOut := some (.pair b) } ∧
    b = (if pix.getLsbD (7 - 2 * i.toNat) then ink else paper)
      ++ (if pix.getLsbD (6 - 2 * i.toNat) then ink else paper)

/-- The six function-unit operations are pure: whatever the operands, a next state has every part of the block's state
and of its surroundings as before. -/
def Obligations.FunctionUnitsArePure : Prop :=
  ∀ (i : Instr) (u : FnUnit) (s t : State), i.space = .wired u → exec i s = .next t →
    s.sameCore t ∧ s.sameSurroundings t ∧ t.fetched = s.fetched ∧ t.resets = s.resets ∧
      ∀ a, t.src.lookup a = s.src.lookup a

/-! ### The ROMs (44_bitmap_emitter.md) -/

/-- R112: the 54 bytes of HDR_ROM; exactly the eleven indices listed are not zero. The layout is the spec's own supply from
general knowledge (R111, log 17). -/
def Obligations.HeaderRomBytes : Prop :=
  hdrRom =
    [0x42#8, 0x4D#8, 0x76#8, 0x60#8, 0#8, 0#8, 0#8, 0#8, 0#8, 0#8, 0x76#8, 0#8, 0#8, 0#8]
      ++ [0x28#8, 0#8, 0#8, 0#8, 0#8, 0x01#8, 0#8, 0#8, 0xC0#8, 0#8, 0#8, 0#8, 0x01#8, 0#8, 0x04#8, 0#8]
      ++ [0#8, 0#8, 0#8, 0#8, 0#8, 0x60#8, 0#8, 0#8, 0#8, 0#8, 0#8, 0#8, 0#8, 0#8, 0#8, 0#8]
      ++ [0#8, 0#8, 0#8, 0#8, 0#8, 0#8, 0#8, 0#8] ∧
  ∀ n, n < 54 → (hdrRom[n]? ≠ some 0#8 ↔ n ∈ [0, 1, 2, 3, 10, 14, 19, 22, 26, 28, 35])

/-- R113, R114: PAL_ROM has 64 bytes; byte 4e + c is blue, green, red or reserved of entry e, at the level its bright
bit gives. The structure is the spec's own decision (D8 to D10, log 18) and the levels are free (log 4). -/
def Obligations.PaletteRomByEntries : Prop :=
  palRom.length = 64 ∧ ∀ (e : Nib) (level : Byte), level = (if e.getLsbD 3 then Config.lvlB else Config.lvlN) →
    palRom[4 * e.toNat]? = some (if e.getLsbD 0 then level else 0#8) ∧
    palRom[4 * e.toNat + 1]? = some (if e.getLsbD 2 then level else 0#8) ∧
    palRom[4 * e.toNat + 2]? = some (if e.getLsbD 1 then level else 0#8) ∧
    palRom[4 * e.toNat + 3]? = some 0#8

/-- R6: the two palette levels lie in 1 to 255. -/
def Obligations.PaletteLevelsAreNotZero : Prop := Config.lvlN.toNat ≠ 0 ∧ Config.lvlB.toNat ≠ 0

/-! ### The views of the program counter (10_state.md) -/

/-- R11: K, AX, I are the fields IDX[14:7], IDX[6:2], IDX[1:0] and E, C the fields IDX[5:2], IDX[1:0]; Y is FLIP of K in
phase PIX; POS counts the bytes of all phases. -/
def Obligations.ViewsOfTheIndex : Prop :=
  ∀ s : State,
    s.idx = s.k ++ s.ax ++ s.i ∧ s.e = s.idx.extractLsb' 2 4 ∧ s.c = s.idx.extractLsb' 0 2 ∧
    (s.phase = .pix → s.idx.toNat ≤ 24575 → ∃ y, flipRow s.k = .next y ∧ y.toNat = 191 - s.idx.toNat / 128) ∧
    (s.phase = .hdr → s.pos = s.idx.toNat) ∧ (s.phase = .pal → s.pos = 54 + s.idx.toNat) ∧
    (s.phase = .pix → s.pos = 118 + s.idx.toNat) ∧ (s.phase = .fin → s.pos = 24694)

/-! ### The sequencer steps (43_row_assembler.md, 44_bitmap_emitter.md) -/

/-- R115: a selected EMIT.HDR appends the header byte of IDX and advances, to (PAL, 0) after 53; if the sink refuses, it
raises WriteError and changes nothing else. -/
def Obligations.EmitHdrEmitsAHeaderByte : Prop :=
  ∀ s : State, s.st = .run → s.phase = .hdr → s.idx.toNat ≤ 53 → ∃ b, hdrRom[s.idx.toNat]? = some b ∧
    (s.sinkAccepts s.idx.toNat = true → exec .emitHdr s = .next
      (if s.idx.toNat = 53 then { s with out := s.out ++ [b], phase := .pal, idx := 0#15 }
        else { s with out := s.out ++ [b], idx := s.idx + 1#15 })) ∧
    (s.sinkAccepts s.idx.toNat = false → exec .emitHdr s = .next { s with st := .fault, cause := .writeError })

/-- R116: a selected EMIT.PAL appends the palette byte of IDX and advances, to (PIX, 0) after 63; POS is 54 + IDX; if the
sink refuses, it raises WriteError and changes nothing else. -/
def Obligations.EmitPalEmitsAPaletteByte : Prop :=
  ∀ s : State, s.st = .run → s.phase = .pal → s.idx.toNat ≤ 63 → ∃ b, palRom[s.idx.toNat]? = some b ∧
    (s.sinkAccepts (54 + s.idx.toNat) = true → exec .emitPal s = .next
      (if s.idx.toNat = 63 then { s with out := s.out ++ [b], phase := .pix, idx := 0#15 }
        else { s with out := s.out ++ [b], idx := s.idx + 1#15 })) ∧
    (s.sinkAccepts (54 + s.idx.toNat) = false →
      exec .emitPal s = .next { s with st := .fault, cause := .writeError })

/-- R101: a selected EMIT.PIX reads k, ax, i from IDX; at i = 0 its two bytes a, p are SRC's attribute byte and pixel
byte of screen row 191 - k, else the latches; it appends PACK(p, CM(a), i), latches a and p, and advances, to (END, 0)
after 24575; if the sink refuses, it raises WriteError and changes nothing else. Nothing is said of the model's own record
of the fetch (log 26), which EmitPixRecordsItsFetch states. -/
def Obligations.EmitPixEmitsAPixelByte : Prop :=
  ∀ (s : State) (k ax i y : Nat) (a p : Byte), s.st = .run → s.phase = .pix → s.idx.toNat ≤ 24575 →
    k = s.idx.toNat / 128 → ax = s.idx.toNat / 4 % 32 → i = s.idx.toNat % 4 → y = 191 - k →
    (i = 0 → s.src.lookup (6144 + 32 * (y / 8) + ax) = some a ∧
      s.src.lookup (2048 * (y / 64) + 256 * (y % 8) + 32 * (y / 8 % 8) + ax) = some p) →
    (i ≠ 0 → s.attr = a ∧ s.pix = p) → ∃ f,
    (s.sinkAccepts (118 + s.idx.toNat) = true → exec .emitPix s = .next
      (if s.idx.toNat = 24575 then
        { s with
          out := s.out ++ [packByte p (inkIndex a) (paperIndex a) (BitVec.ofNat 2 i)]
          attr := a, pix := p, fetched := f, phase := .fin, idx := 0#15 }
      else
        { s with
          out := s.out ++ [packByte p (inkIndex a) (paperIndex a) (BitVec.ofNat 2 i)]
          attr := a, pix := p, fetched := f, idx := s.idx + 1#15 })) ∧
    (s.sinkAccepts (118 + s.idx.toNat) = false →
      exec .emitPix s = .next { s with st := .fault, cause := .writeError })

/-- An accepted EMIT.PIX at I = 0 records the strip and the two bytes it latches, and one inside a strip keeps the record
and the latches; the record is the model's own (log 26). -/
def Obligations.EmitPixRecordsItsFetch : Prop :=
  ∀ s t : State, exec .emitPix s = .next t → t.st = .run →
    (s.idx.toNat % 4 = 0 → t.fetched = some ⟨s.k, s.ax, t.attr, t.pix⟩) ∧
    (s.idx.toNat % 4 ≠ 0 → t.fetched = s.fetched ∧ t.attr = s.attr ∧ t.pix = s.pix)

/-- A fetch from a location that holds no value is refused, the attribute byte's first (R36; log 6); a step inside a strip
reads the latches alone and never stops, whatever they hold (log 5). -/
def Obligations.EmitPixRefusesWhatHoldsNoValue : Prop :=
  ∀ (s : State) (y aAddr pAddr : Nat), s.st = .run → s.phase = .pix → s.idx.toNat ≤ 24575 →
    y = 191 - s.idx.toNat / 128 → aAddr = 6144 + 32 * (y / 8) + s.idx.toNat / 4 % 32 →
    pAddr = 2048 * (y / 64) + 256 * (y % 8) + 32 * (y / 8 % 8) + s.idx.toNat / 4 % 32 →
    (s.idx.toNat % 4 = 0 → s.src.lookup aAddr = none → exec .emitPix s = .refused (.srcHoldsNoValue aAddr)) ∧
    (s.idx.toNat % 4 = 0 → s.src.lookup aAddr ≠ none → s.src.lookup pAddr = none →
      exec .emitPix s = .refused (.srcHoldsNoValue pAddr)) ∧
    (s.idx.toNat % 4 ≠ 0 → ∃ t, exec .emitPix s = .next t)

/-- R117: a selected END sets ST to DONE and changes nothing else. -/
def Obligations.EndRunSetsDone : Prop :=
  ∀ s : State, s.st = .run → s.phase = .fin → exec .endRun s = .next { s with st := .done }

/-- A sequencer step that (ST, PHASE) do not select is refused by name, and so is an emitting step on an IDX outside its
phase's range; R62 and R64 give neither a meaning, and the stops are the model's (logs 12 and 14). -/
def Obligations.SequencerStepsStopWhereNotSelected : Prop :=
  ∀ s : State,
    (∀ i p, (i = .emitHdr ∧ p = .hdr) ∨ (i = .emitPal ∧ p = .pal) ∨ (i = .emitPix ∧ p = .pix) ∨
      (i = .endRun ∧ p = .fin) → s.st ≠ .run ∨ s.phase ≠ p → exec i s = .refused .notSelected) ∧
    (s.st = .run → s.phase = .hdr → 53 < s.idx.toNat → exec .emitHdr s = .refused .idxOutsidePhase) ∧
    (s.st = .run → s.phase = .pal → 63 < s.idx.toNat → exec .emitPal s = .refused .idxOutsidePhase) ∧
    (s.st = .run → s.phase = .pix → 24575 < s.idx.toNat → exec .emitPix s = .refused .idxOutsidePhase)

/-- The frame of the sequencer steps and of START and NOP: SRC, the surroundings and the unit record are as before; the
latches too, but for EMIT.PIX at I = 0; CAUSE too, but for a fault and an accepted START. -/
def Obligations.SequencerAndStartFrame : Prop :=
  ∀ (i : Instr) (s t : State), (i.space = .phase ∨ i = .nop ∨ ∃ n, i = .start n) → exec i s = .next t →
    (∀ a, t.src.lookup a = s.src.lookup a) ∧ s.sameSurroundings t ∧ t.unitOut = s.unitOut ∧ t.resets = s.resets ∧
    (¬ (i = .emitPix ∧ s.idx.toNat % 4 = 0) → t.attr = s.attr ∧ t.pix = s.pix ∧ t.fetched = s.fetched) ∧
    (t.st ≠ .fault → (∀ n, i ≠ .start n) → t.cause = s.cause)

/-- R12: an emitting step that emits moves (PHASE, IDX) to the next position of the one sequence, POS growing by one with
OUT; one that does not emit leaves the pair and OUT as they were; END leaves the pair. -/
def Obligations.ProgramCounterFollowsTheSequence : Prop :=
  ∀ (i : Instr) (s t : State), i.space = .phase → exec i s = .next t →
    (t.st = .run → t.pos = s.pos + 1 ∧ t.idxInRange ∧ ∃ b, t.out = s.out ++ [b]) ∧
    (t.st ≠ .run → t.phase = s.phase ∧ t.idx = s.idx ∧ t.out = s.out)

/-! ### Commands, the step and the host's moves (45_control_operations.md, 30_encoding.md) -/

/-- R126: START in IDLE with LEN at least 6912 empties OUT and enters RUN at (HDR, 0); with less it raises InputLength
and touches nothing else; in any other state it is ignored. -/
def Obligations.StartByStateAndLength : Prop :=
  ∀ (s : State) (len : Nat),
    (s.st = .idle → 6912 ≤ len → exec (.start len) s =
      .next { s with out := [], phase := .hdr, idx := 0#15, cause := .none, st := .run }) ∧
    (s.st = .idle → len < 6912 → exec (.start len) s = .next { s with cause := .inputLength, st := .fault }) ∧
    (s.st ≠ .idle → exec (.start len) s = .next s)

/-- R127: RESET, in any state and with either start bit, gives IDLE at (HDR, 0) with no cause, every SRC location holding
no value, OUT and the surroundings untouched. What the latches hold after it is unspecified, and nothing is said of it. -/
def Obligations.ResetFromEveryState : Prop :=
  ∀ (s : State) (b : BitVec 1), ∃ t, exec (.reset b) s = .next t ∧
    t.st = .idle ∧ t.phase = .hdr ∧ t.idx = 0#15 ∧ t.cause = .none ∧
    (∀ a, t.src.lookup a = none) ∧ t.out = s.out ∧ s.sameSurroundings t ∧ t.unitOut = s.unitOut

/-- RESET keeps nothing of what the latches and the last fetch held: two states whose resets are counted alike have the
same latches after it. That the unspecified values of R127 are one free value for each reset is the model's (log 5). -/
def Obligations.ResetForgetsTheLatches : Prop :=
  ∀ (s s' : State) (b b' : BitVec 1), s.resets = s'.resets → ∃ t t', exec (.reset b) s = .next t ∧
    exec (.reset b') s' = .next t' ∧ t.attr = t'.attr ∧ t.pix = t'.pix ∧ t.fetched = none ∧ t'.fetched = none ∧
    t.resets = s.resets + 1

/-- NOP changes nothing. R62 and R128 select it only while ST is not RUN; that exec gives it the same effect in RUN, where
nothing selects it, is the model's choice (log 14). -/
def Obligations.NopChangesNothing : Prop := ∀ s : State, exec .nop s = .next s

/-- R61, R128: what a sampled command word does: 1x resets in every state, 01 is START in every state, 00 takes the step
PHASE selects in RUN and does nothing elsewhere. Each sample is taken from the list of inputs (log 1). That a START
sampled in RUN takes the place of the sequencer's step, which R128 leaves open, is the model's choice (log 13). -/
def Obligations.CommandWordSelectsTheOperation : Prop :=
  ∀ (s : State) (c : BitVec 2) (len : Nat) (rest : List HostInput) (u : State),
    s.inputs = .command c len :: rest → u = { s with inputs := rest } →
    (c = 3#2 ∨ c = 2#2 → ∀ b, step s = exec (.reset b) u) ∧
    (c = 1#2 → step s = exec (.start len) u) ∧
    (c = 0#2 → s.st ≠ .run → step s = .next u) ∧
    (c = 0#2 → s.st = .run → s.phase = .hdr → step s = exec .emitHdr u) ∧
    (c = 0#2 → s.st = .run → s.phase = .pal → step s = exec .emitPal u) ∧
    (c = 0#2 → s.st = .run → s.phase = .pix → step s = exec .emitPix u) ∧
    (c = 0#2 → s.st = .run → s.phase = .fin → step s = exec .endRun u)

/-- A step runs the decoded operation: with no input left the one (CMD = 00, ST, PHASE) select; with a sampled command
the one it selects; with a word on a unit's wires the one the decoder reads, or a refusal by name where it reads none; a new
sink is taken as it comes. The input taken is removed (logs 1, 9 and 24). -/
def Obligations.StepRunsTheDecodedOperation : Prop :=
  ∀ s : State,
    (s.inputs = [] → step s = exec (selectOp 0#2 0 s) s) ∧
    (∀ c len rest, s.inputs = .command c len :: rest →
      step s = exec (selectOp c len s) { s with inputs := rest }) ∧
    (∀ u word rest i, s.inputs = .unit u word :: rest → decode (.wired u) word = .ok i →
      step s = exec i { s with inputs := rest }) ∧
    (∀ u word rest e, s.inputs = .unit u word :: rest → decode (.wired u) word = .error e →
      step s = .refused (.undecodable e)) ∧
    (∀ fails rest, s.inputs = .prepareSink fails :: rest →
      step s = .next { s with inputs := rest, sinkFails := fails })

/-- A table word placed in any state is what the next step runs: the operation decodeTableWord reads, with every field
the placing does not need as it was. NOP is selected only while ST is not RUN (log 2). -/
def Obligations.TableWordIsTheNextOperation : Prop :=
  ∀ (s : State) (nbits w : Nat) (i : Instr), decodeTableWord nbits w = some i → (i = .nop → s.st ≠ .run) →
    ∃ u, step (s.withFetchWord nbits w) = exec i u ∧ u.inputs = s.inputs ∧ u.sinkFails = s.sinkFails ∧
      u.idx = s.idx ∧ u.cause = s.cause ∧ u.attr = s.attr ∧ u.pix = s.pix ∧ u.src = s.src ∧ u.out = s.out ∧
      u.unitOut = s.unitOut ∧ u.fetched = s.fetched ∧ u.resets = s.resets ∧ (i.space ≠ .phase → u = s) ∧
      (i.space = .phase → u.st = .run)

/-- R125, R158: outside a run the host's write of an existing location makes that location hold the byte and changes no
other; in a run it is refused, and an address above 6911 names no location (log 15). -/
def Obligations.HostWritesSrcOutsideARun : Prop :=
  ∀ (s : State) (addr : BitVec 13) (b : Byte) (rest : List HostInput), s.inputs = .srcWrite addr b :: rest →
    (s.st ≠ .run → addr.toNat ≤ 6911 → s.src.wf = true → ∃ m,
      step s = .next { s with inputs := rest, src := m } ∧ m.wf = true ∧
      ∀ a, m.lookup a = if a = addr.toNat then some b else s.src.lookup a) ∧
    (s.st = .run → step s = .refused .srcWriteDuringRun) ∧
    (s.st ≠ .run → 6911 < addr.toNat → step s = .fault (.noSuchAddress addr.toNat))

/-- MemRead returns the byte the host last wrote (R36). Of a location that holds no value R36 asks for a fault of the model
or a refusal, and the model refuses (log 6); of an address above 6911 R36 says that the read does not exist, and the model
faults (log 25). -/
def Obligations.MemReadReturnsTheLastWrite : Prop :=
  ∀ (m : Memory) (a : Nat) (b : Byte), m.wf = true →
    (a ≤ 6911 → memRead (m.insert a b) a = .next b) ∧
    (∀ a', a' ≠ a → memRead (m.insert a b) a' = memRead m a') ∧
    (a ≤ 6911 → (∀ x ∈ m, x.1 ≠ a) → memRead m a = .refused (.srcHoldsNoValue a)) ∧
    (6911 < a → memRead m a = .fault (.noSuchAddress a))

/-! ### Words (30_encoding.md) -/

/-- Every well-formed operation is read back from its own word, with every operand at every value. -/
def Obligations.DecodeEncodeRoundTrip : Prop :=
  ∀ i : Instr, i.wellFormed = true → decode i.space (encode i) = .ok i

/-- The decoder gives only operations whose operands lie in their domains, of the space it was asked about (R64). -/
def Obligations.DecoderGivesWellFormedOperations : Prop :=
  ∀ (sp : Space) (bs : List Byte) (i : Instr), decode sp bs = .ok i → i.wellFormed = true ∧ i.space = sp

/-- Words written out from the formats of R51 to R61 decode to the operations they stand for. -/
def Obligations.WordsOfTheSpecDecode : Prop :=
  decode (.wired .flip) [0b01100100#8] = .ok (.flip 100#8) ∧
  decode (.wired .translate) [0b00100101#8, 0b00000001#8] = .ok (.translate 9#8 5#5) ∧
  decode (.wired .attrOff) [0b11111111#8, 0b00010111#8] = .ok (.attrOff 191#8 31#5) ∧
  decode (.wired .translate) [0#8, 0b00011000#8] = .error (.rowOutsideDomain 192#8) ∧
  decode .phase [0b10#8] = .ok .emitPix ∧ decode .cmd [0b11#8] = .ok (.reset 1#1) ∧
  decode .cmd [0b01#8, 0x00#8, 0x1B#8] = .ok (.start 6912)

/-- R60: STATUS has ST in bits 1:0, PHASE in bits 3:2 and CAUSE in bits 5:4, with the rule's codes. -/
def Obligations.StatusWordFields : Prop :=
  ∀ s : State,
    s.status.extractLsb' 0 2 = (match s.st with | .idle => 0#2 | .run => 1#2 | .done => 2#2 | .fault => 3#2) ∧
    s.status.extractLsb' 2 2 = (match s.phase with | .hdr => 0#2 | .pal => 1#2 | .pix => 2#2 | .fin => 3#2) ∧
    s.status.extractLsb' 4 2 =
      (match s.cause with | .none => 0#2 | .inputLength => 1#2 | .writeError => 2#2 | .reserved => 3#2)

/-! ### Faults, reset and whole-machine rules (10_state.md, 60_exceptions.md) -/

/-- R135, R136, R139: an operation that enters FAULT writes ST and CAUSE and nothing else, and is START with InputLength
or an emitting step with WriteError. -/
def Obligations.FaultEntryIsPrecise : Prop :=
  ∀ (i : Instr) (s t : State), exec i s = .next t → s.st ≠ .fault → t.st = .fault →
    t = { s with st := .fault, cause := t.cause } ∧
    ((∃ n, i = .start n ∧ n < 6912 ∧ s.st = .idle ∧ t.cause = .inputLength) ∨
      ((i = .emitHdr ∨ i = .emitPal ∨ i = .emitPix) ∧ s.sinkAccepts s.pos = false ∧ t.cause = .writeError))

/-- R140: in FAULT no command selects a sequencer step, START changes nothing, no operation but RESET changes any part of
the block's state, so no second fault arises, and RESET discards the run and its fault record. -/
def Obligations.FaultIsLeftByResetOnly : Prop :=
  ∀ (s : State), s.st = .fault →
    (∀ c len, (selectOp c len s).space = .cmd) ∧ (∀ len, exec (.start len) s = .next s) ∧
    (∀ i t, exec i s = .next t → (∀ b, i ≠ .reset b) → s.sameCore t) ∧
    (∀ b, ∃ t, exec (.reset b) s = .next t ∧ t.st = .idle ∧ t.phase = .hdr ∧ t.idx = 0#15 ∧ t.cause = .none)

/-- R140, R128: in FAULT and in DONE no step changes ST, CAUSE, (PHASE, IDX), the latches or OUT unless the command
sampled is RESET. -/
def Obligations.StoppedStatesAreLeftByResetOnly : Prop :=
  ∀ s t : State, (s.st = .fault ∨ s.st = .done) → step s = .next t →
    (∀ c n rest, s.inputs = .command c n :: rest → c ≠ 2#2 ∧ c ≠ 3#2) →
    t.st = s.st ∧ t.cause = s.cause ∧ t.phase = s.phase ∧ t.idx = s.idx ∧ t.attr = s.attr ∧ t.pix = s.pix ∧
      t.out = s.out ∧ t.fetched = s.fetched ∧ t.resets = s.resets

/-- R142: the level DONE rises by END alone and FAULT by a fault alone, and either falls by RESET alone. -/
def Obligations.LevelOutputsFollowTheRun : Prop :=
  ∀ s t : State, step s = .next t →
    (s.doneLevel = true ↔ s.status.extractLsb' 0 2 = 2#2) ∧ (s.faultLevel = true ↔ s.status.extractLsb' 0 2 = 3#2) ∧
    (s.doneLevel = false → t.doneLevel = true → s.st = .run ∧ s.phase = .fin) ∧
    (s.faultLevel = false → t.faultLevel = true → t.cause = .inputLength ∨ t.cause = .writeError) ∧
    ((s.doneLevel = true ∧ t.doneLevel = false) ∨ (s.faultLevel = true ∧ t.faultLevel = false) →
      ∃ c n rest, s.inputs = .command c n :: rest ∧ (c = 2#2 ∨ c = 3#2))

/-- R18: SRC is changed by the host's write outside a run and by RESET, and by nothing else; the core only reads it. -/
def Obligations.SrcIsWrittenByTheHostOnly : Prop :=
  ∀ s t : State, step s = .next t → t.src ≠ s.src →
    (∃ addr b rest, s.inputs = .srcWrite addr b :: rest ∧ s.st ≠ .run ∧ addr.toNat ≤ 6911) ∨
    (∃ c n rest, s.inputs = .command c n :: rest ∧ (c = 2#2 ∨ c = 3#2) ∧ t.src = [])

/-- R19: OUT grows by one byte at its end in a run, or is emptied by an accepted START, and changes in no other way. -/
def Obligations.OutGrowsAtItsEndOrIsEmptied : Prop :=
  ∀ s t : State, step s = .next t →
    t.out = s.out ∨ (s.st = .run ∧ ∃ b, t.out = s.out ++ [b]) ∨
    (s.st = .idle ∧ t.st = .run ∧ t.out = [] ∧
      ∃ n rest, s.inputs = .command 1#2 n :: rest ∧ 6912 ≤ n)

/-- R22, R156: after power-on ST is IDLE at (HDR, 0) with no cause, and no SRC location holds a value (log 6). That no strip
is recorded as fetched is the model's own (log 26). What the latches hold is unspecified, and nothing is said of it. -/
def Obligations.PowerOnStateOfTheSpec : Prop :=
  State.reset.st = .idle ∧ State.reset.phase = .hdr ∧ State.reset.idx = 0#15 ∧ State.reset.cause = .none ∧
    State.reset.fetched = none ∧ ∀ a, State.reset.src.lookup a = none

/-- R23: the invariant of the machine holds after reset. -/
def Obligations.InvariantAtReset : Prop := State.reset.Inv

/-- R23: every step keeps the invariant, from every state that meets it: IDX in its phase's range, CAUSE agreeing with
ST, OUT counted by POS, IDLE and DONE at their positions, the latches holding the bytes fetched for the strip (Y, AX) in
phase PIX with I other than 0 whatever ST is (the record of log 26), those bytes standing in SRC while ST is RUN, SRC in canonical form. -/
def Obligations.InvariantIsKeptByEveryStep : Prop :=
  ∀ s t : State, s.Inv → step s = .next t → t.Inv

/-- A run over a fully loaded SRC never stops in the model: with nothing left to sample, the step emits the next byte, or
raises WriteError because the sink refuses it, or ends the run. -/
def Obligations.LoadedRunNeverStops : Prop :=
  ∀ s : State, s.Inv → s.st = .run → s.inputs = [] → s.src.loaded → ∃ t, step s = .next t ∧
    ((s.phase = .fin ∧ t = { s with st := .done }) ∨
      (s.phase ≠ .fin ∧ s.sinkAccepts s.pos = true ∧ t.st = .run ∧ t.pos = s.pos + 1) ∨
      (s.phase ≠ .fin ∧ s.sinkAccepts s.pos = false ∧ t = { s with st := .fault, cause := .writeError }))

/-! ### The run and the closed form (43_row_assembler.md, 44_bitmap_emitter.md, 45_control_operations.md) -/

/-- R119: the first 118 bytes of the output are the same for every SRC. -/
def Obligations.HeaderAndPaletteAreConstant : Prop :=
  ∀ (src src' : Memory) (n : Nat), n < 118 → ∃ b, fileByte src n = .next b ∧ fileByte src' n = .next b

/-- R105: a change of the pixel byte of strip (y, ax) alone shows in that strip's four output bytes only, and a change of
its attribute byte alone in the strips of column ax on the eight rows of y's band only. -/
def Obligations.EachSrcByteShowsInItsOwnStrips : Prop :=
  ∀ (src src' : Memory) (y : BitVec 8) (ax : BitVec 5) (a : BitVec 13) (n : Nat), n < 24694 →
    (∀ x, x ≠ a.toNat → src'.lookup x = src.lookup x) →
    (bitmapOff y ax = .next a →
      n < 118 + 128 * (191 - y.toNat) + 4 * ax.toNat ∨ 118 + 128 * (191 - y.toNat) + 4 * ax.toNat + 3 < n →
      fileByte src' n = fileByte src n) ∧
    (attrAddr y ax = .next a →
      (∀ r, r / 8 = y.toNat / 8 →
        n < 118 + 128 * (191 - r) + 4 * ax.toNat ∨ 118 + 128 * (191 - r) + 4 * ax.toNat + 3 < n) →
      fileByte src' n = fileByte src n)

/-- R118: from any IDLE state over a fully loaded SRC, START with LEN at least 6912 and a sink that accepts every position
reach, after START, 24694 emitting steps and one END, the state DONE with CAUSE 0 at (END, 0), and OUT is the closed form
of SRC. -/
def Obligations.RunFromStartGivesTheFile : Prop :=
  ∀ (s : State) (len : Nat), s.st = .idle → s.inputs = [.command 1#2 len] → 6912 ≤ len → s.src.loaded →
    s.sinkAcceptsAll → ∃ t, Host.Core.run Sys2Proof.core (1 + 24694 + 1) s = .next t ∧
      t.st = .done ∧ t.cause = .none ∧ t.phase = .fin ∧ t.idx = 0#15 ∧ t.out.length = 24694 ∧
      ∀ n, n < 24694 → ∃ b, t.out[n]? = some b ∧ fileByte s.src n = .next b

/-- R129: from the same start, if n is the least position the sink refuses, the run ends in FAULT with CAUSE 2 and
POS = n. Nothing is claimed about OUT there (R151, U5). -/
def Obligations.RunStopsAtTheFirstRefusedByte : Prop :=
  ∀ (s : State) (len n : Nat), s.st = .idle → s.inputs = [.command 1#2 len] → 6912 ≤ len → s.src.loaded →
    n < 24694 → (∀ m, m < n → s.sinkAccepts m = true) → s.sinkAccepts n = false →
    ∃ t, Host.Core.run Sys2Proof.core (1 + n + 1) s = .next t ∧
      t.st = .fault ∧ t.cause = .writeError ∧ t.pos = n

/-- R67, R118: FILE, put together from the ROMs, ROW and STRIP, is the closed form byte by byte. -/
def Obligations.FileIsTheClosedForm : Prop :=
  ∀ src : Memory, src.loaded → ∃ l, fileBytes src = .next l ∧ l.length = 24694 ∧
    ∀ n, n < 24694 → ∃ b, l[n]? = some b ∧ fileByte src n = .next b

/-- R103: the pixel at screen column x, screen row y stands in byte 118 + 128*(191 - y) + x/2 of the output, in the high
nibble if x is even and in the low nibble if x is odd. -/
def Obligations.PixelsStandWhereTheFormatPutsThem : Prop :=
  ∀ (src : Memory) (x y : BitVec 8), src.loaded → y.toNat ≤ 191 → ∃ c b, pixelIndex src x y = .next c ∧
    fileByte src (118 + 128 * (191 - y.toNat) + x.toNat / 2) = .next b ∧
    c = if x.toNat % 2 = 0 then b.extractLsb' 4 4 else b.extractLsb' 0 4

/-- R104: a change of screen row 0 alone (SRC[0] to SRC[31]) can show in the last file row only. -/
def Obligations.TopRowIsTheLastFileRow : Prop :=
  ∀ (src src' : Memory) (n : Nat), (∀ a, 32 ≤ a → src'.lookup a = src.lookup a) → n < 24566 →
    fileByte src' n = fileByte src n

/-- R105, R119: two dumps that differ only in the flash bit of attribute bytes give the same output. -/
def Obligations.FlashBitsDoNotShow : Prop :=
  ∀ (src src' : Memory) (n : Nat), (∀ a, a < 6144 → src'.lookup a = src.lookup a) →
    (∀ a, 6144 ≤ a → a < 6912 →
      (src'.lookup a).map (fun b => b &&& 0x7F#8) = (src.lookup a).map (fun b => b &&& 0x7F#8)) →
    fileByte src' n = fileByte src n
end

