-- ==== Sys2Proof/Laws/State.lean ====
section
/-! SUPPORT. One lemma per field of State and per update that a named operation makes, so that no proof unfolds
a record update. -/

namespace Sys2Proof.Machine

@[simp] theorem showUnit_st (o : UnitOut) (s : State) : (showUnit o s).st = s.st := rfl
@[simp] theorem showUnit_phase (o : UnitOut) (s : State) : (showUnit o s).phase = s.phase := rfl
@[simp] theorem showUnit_idx (o : UnitOut) (s : State) : (showUnit o s).idx = s.idx := rfl
@[simp] theorem showUnit_cause (o : UnitOut) (s : State) : (showUnit o s).cause = s.cause := rfl
@[simp] theorem showUnit_attr (o : UnitOut) (s : State) : (showUnit o s).attr = s.attr := rfl
@[simp] theorem showUnit_pix (o : UnitOut) (s : State) : (showUnit o s).pix = s.pix := rfl
@[simp] theorem showUnit_src (o : UnitOut) (s : State) : (showUnit o s).src = s.src := rfl
@[simp] theorem showUnit_out (o : UnitOut) (s : State) : (showUnit o s).out = s.out := rfl
@[simp] theorem showUnit_inputs (o : UnitOut) (s : State) : (showUnit o s).inputs = s.inputs := rfl
@[simp] theorem showUnit_sinkFails (o : UnitOut) (s : State) : (showUnit o s).sinkFails = s.sinkFails := rfl
@[simp] theorem showUnit_unitOut (o : UnitOut) (s : State) : (showUnit o s).unitOut = some o := rfl
@[simp] theorem showUnit_fetched (o : UnitOut) (s : State) : (showUnit o s).fetched = s.fetched := rfl
@[simp] theorem showUnit_resets (o : UnitOut) (s : State) : (showUnit o s).resets = s.resets := rfl

@[simp] theorem raise_st (c : Cause) (s : State) : (raise c s).st = .fault := rfl
@[simp] theorem raise_phase (c : Cause) (s : State) : (raise c s).phase = s.phase := rfl
@[simp] theorem raise_idx (c : Cause) (s : State) : (raise c s).idx = s.idx := rfl
@[simp] theorem raise_cause (c : Cause) (s : State) : (raise c s).cause = c := rfl
@[simp] theorem raise_attr (c : Cause) (s : State) : (raise c s).attr = s.attr := rfl
@[simp] theorem raise_pix (c : Cause) (s : State) : (raise c s).pix = s.pix := rfl
@[simp] theorem raise_src (c : Cause) (s : State) : (raise c s).src = s.src := rfl
@[simp] theorem raise_out (c : Cause) (s : State) : (raise c s).out = s.out := rfl
@[simp] theorem raise_inputs (c : Cause) (s : State) : (raise c s).inputs = s.inputs := rfl
@[simp] theorem raise_sinkFails (c : Cause) (s : State) : (raise c s).sinkFails = s.sinkFails := rfl
@[simp] theorem raise_unitOut (c : Cause) (s : State) : (raise c s).unitOut = s.unitOut := rfl
@[simp] theorem raise_fetched (c : Cause) (s : State) : (raise c s).fetched = s.fetched := rfl
@[simp] theorem raise_resets (c : Cause) (s : State) : (raise c s).resets = s.resets := rfl

@[simp] theorem resetCore_st (s : State) : (resetCore s).st = .idle := rfl
@[simp] theorem resetCore_phase (s : State) : (resetCore s).phase = .hdr := rfl
@[simp] theorem resetCore_idx (s : State) : (resetCore s).idx = 0#15 := rfl
@[simp] theorem resetCore_cause (s : State) : (resetCore s).cause = .none := rfl
@[simp] theorem resetCore_attr (s : State) : (resetCore s).attr = Config.unwrittenAttr (s.resets + 1) := rfl
@[simp] theorem resetCore_pix (s : State) : (resetCore s).pix = Config.unwrittenPix (s.resets + 1) := rfl
@[simp] theorem resetCore_src (s : State) : (resetCore s).src = [] := rfl
@[simp] theorem resetCore_out (s : State) : (resetCore s).out = s.out := rfl
@[simp] theorem resetCore_inputs (s : State) : (resetCore s).inputs = s.inputs := rfl
@[simp] theorem resetCore_sinkFails (s : State) : (resetCore s).sinkFails = s.sinkFails := rfl
@[simp] theorem resetCore_unitOut (s : State) : (resetCore s).unitOut = s.unitOut := rfl
@[simp] theorem resetCore_fetched (s : State) : (resetCore s).fetched = none := rfl
@[simp] theorem resetCore_resets (s : State) : (resetCore s).resets = s.resets + 1 := rfl

@[simp] theorem beginRun_st (s : State) : (beginRun s).st = .run := rfl
@[simp] theorem beginRun_phase (s : State) : (beginRun s).phase = .hdr := rfl
@[simp] theorem beginRun_idx (s : State) : (beginRun s).idx = 0#15 := rfl
@[simp] theorem beginRun_cause (s : State) : (beginRun s).cause = .none := rfl
@[simp] theorem beginRun_attr (s : State) : (beginRun s).attr = s.attr := rfl
@[simp] theorem beginRun_pix (s : State) : (beginRun s).pix = s.pix := rfl
@[simp] theorem beginRun_src (s : State) : (beginRun s).src = s.src := rfl
@[simp] theorem beginRun_out (s : State) : (beginRun s).out = [] := rfl
@[simp] theorem beginRun_inputs (s : State) : (beginRun s).inputs = s.inputs := rfl
@[simp] theorem beginRun_sinkFails (s : State) : (beginRun s).sinkFails = s.sinkFails := rfl
@[simp] theorem beginRun_unitOut (s : State) : (beginRun s).unitOut = s.unitOut := rfl
@[simp] theorem beginRun_fetched (s : State) : (beginRun s).fetched = s.fetched := rfl
@[simp] theorem beginRun_resets (s : State) : (beginRun s).resets = s.resets := rfl

@[simp] theorem consumeInput_st (s : State) : (consumeInput s).st = s.st := rfl
@[simp] theorem consumeInput_phase (s : State) : (consumeInput s).phase = s.phase := rfl
@[simp] theorem consumeInput_idx (s : State) : (consumeInput s).idx = s.idx := rfl
@[simp] theorem consumeInput_cause (s : State) : (consumeInput s).cause = s.cause := rfl
@[simp] theorem consumeInput_attr (s : State) : (consumeInput s).attr = s.attr := rfl
@[simp] theorem consumeInput_pix (s : State) : (consumeInput s).pix = s.pix := rfl
@[simp] theorem consumeInput_src (s : State) : (consumeInput s).src = s.src := rfl
@[simp] theorem consumeInput_out (s : State) : (consumeInput s).out = s.out := rfl
@[simp] theorem consumeInput_inputs (s : State) : (consumeInput s).inputs = s.inputs.tail := rfl
@[simp] theorem consumeInput_sinkFails (s : State) : (consumeInput s).sinkFails = s.sinkFails := rfl
@[simp] theorem consumeInput_unitOut (s : State) : (consumeInput s).unitOut = s.unitOut := rfl
@[simp] theorem consumeInput_fetched (s : State) : (consumeInput s).fetched = s.fetched := rfl
@[simp] theorem consumeInput_resets (s : State) : (consumeInput s).resets = s.resets := rfl

@[simp] theorem withSink_st (fs : List Nat) (s : State) : (withSink fs s).st = s.st := rfl
@[simp] theorem withSink_phase (fs : List Nat) (s : State) : (withSink fs s).phase = s.phase := rfl
@[simp] theorem withSink_idx (fs : List Nat) (s : State) : (withSink fs s).idx = s.idx := rfl
@[simp] theorem withSink_cause (fs : List Nat) (s : State) : (withSink fs s).cause = s.cause := rfl
@[simp] theorem withSink_attr (fs : List Nat) (s : State) : (withSink fs s).attr = s.attr := rfl
@[simp] theorem withSink_pix (fs : List Nat) (s : State) : (withSink fs s).pix = s.pix := rfl
@[simp] theorem withSink_src (fs : List Nat) (s : State) : (withSink fs s).src = s.src := rfl
@[simp] theorem withSink_out (fs : List Nat) (s : State) : (withSink fs s).out = s.out := rfl
@[simp] theorem withSink_inputs (fs : List Nat) (s : State) : (withSink fs s).inputs = s.inputs := rfl
@[simp] theorem withSink_sinkFails (fs : List Nat) (s : State) : (withSink fs s).sinkFails = fs := rfl
@[simp] theorem withSink_unitOut (fs : List Nat) (s : State) : (withSink fs s).unitOut = s.unitOut := rfl
@[simp] theorem withSink_fetched (fs : List Nat) (s : State) : (withSink fs s).fetched = s.fetched := rfl
@[simp] theorem withSink_resets (fs : List Nat) (s : State) : (withSink fs s).resets = s.resets := rfl

@[simp] theorem advance_st (l : Nat) (p : Phase) (s : State) : (advance l p s).st = s.st := by
  unfold advance; split <;> rfl
@[simp] theorem advance_cause (l : Nat) (p : Phase) (s : State) : (advance l p s).cause = s.cause := by
  unfold advance; split <;> rfl
@[simp] theorem advance_attr (l : Nat) (p : Phase) (s : State) : (advance l p s).attr = s.attr := by
  unfold advance; split <;> rfl
@[simp] theorem advance_pix (l : Nat) (p : Phase) (s : State) : (advance l p s).pix = s.pix := by
  unfold advance; split <;> rfl
@[simp] theorem advance_src (l : Nat) (p : Phase) (s : State) : (advance l p s).src = s.src := by
  unfold advance; split <;> rfl
@[simp] theorem advance_out (l : Nat) (p : Phase) (s : State) : (advance l p s).out = s.out := by
  unfold advance; split <;> rfl
@[simp] theorem advance_inputs (l : Nat) (p : Phase) (s : State) : (advance l p s).inputs = s.inputs := by
  unfold advance; split <;> rfl
@[simp] theorem advance_sinkFails (l : Nat) (p : Phase) (s : State) : (advance l p s).sinkFails = s.sinkFails := by
  unfold advance; split <;> rfl
@[simp] theorem advance_unitOut (l : Nat) (p : Phase) (s : State) : (advance l p s).unitOut = s.unitOut := by
  unfold advance; split <;> rfl
@[simp] theorem advance_fetched (l : Nat) (p : Phase) (s : State) : (advance l p s).fetched = s.fetched := by
  unfold advance; split <;> rfl
@[simp] theorem advance_resets (l : Nat) (p : Phase) (s : State) : (advance l p s).resets = s.resets := by
  unfold advance; split <;> rfl

@[simp] theorem latchStrip_st (a p : Byte) (s : State) : (latchStrip a p s).st = s.st := by
  unfold latchStrip; split <;> rfl
@[simp] theorem latchStrip_phase (a p : Byte) (s : State) : (latchStrip a p s).phase = s.phase := by
  unfold latchStrip; split <;> rfl
@[simp] theorem latchStrip_idx (a p : Byte) (s : State) : (latchStrip a p s).idx = s.idx := by
  unfold latchStrip; split <;> rfl
@[simp] theorem latchStrip_cause (a p : Byte) (s : State) : (latchStrip a p s).cause = s.cause := by
  unfold latchStrip; split <;> rfl
@[simp] theorem latchStrip_src (a p : Byte) (s : State) : (latchStrip a p s).src = s.src := by
  unfold latchStrip; split <;> rfl
@[simp] theorem latchStrip_out (a p : Byte) (s : State) : (latchStrip a p s).out = s.out := by
  unfold latchStrip; split <;> rfl
@[simp] theorem latchStrip_inputs (a p : Byte) (s : State) : (latchStrip a p s).inputs = s.inputs := by
  unfold latchStrip; split <;> rfl
@[simp] theorem latchStrip_sinkFails (a p : Byte) (s : State) : (latchStrip a p s).sinkFails = s.sinkFails := by
  unfold latchStrip; split <;> rfl
@[simp] theorem latchStrip_unitOut (a p : Byte) (s : State) : (latchStrip a p s).unitOut = s.unitOut := by
  unfold latchStrip; split <;> rfl
@[simp] theorem latchStrip_resets (a p : Byte) (s : State) : (latchStrip a p s).resets = s.resets := by
  unfold latchStrip; split <;> rfl

/-- At I = 0 the two bytes go into the latches and into the record (R101). -/
theorem latchStrip_fetch {a p : Byte} {s : State} (h : s.i = 0#2) :
    latchStrip a p s = { s with attr := a, pix := p, fetched := some ⟨s.k, s.ax, a, p⟩ } := if_pos h

/-- Inside a strip nothing is latched (R101). -/
theorem latchStrip_inside {a p : Byte} {s : State} (h : s.i ≠ 0#2) : latchStrip a p s = s := if_neg h

/-- POS depends on (PHASE, IDX) alone, so an update that keeps both keeps POS (R11). -/
theorem pos_congr {s t : State} (hp : t.phase = s.phase) (hi : t.idx = s.idx) : t.pos = s.pos := by
  simp [State.pos, hp, hi]

end Sys2Proof.Machine
end

