-- ==== Sys2Proof/Laws/Ops.lean ====
section
/-! SUPPORT. What each shared operation can do, said once. -/

namespace Sys2Proof.Machine

/-! ### andThen -/

@[simp] theorem andThen_next {α β : Type} (a : α) (f : α → Result β) : andThen (.next a) f = f a := rfl
@[simp] theorem andThen_fault {α β : Type} (r : Fault) (f : α → Result β) : andThen (.fault r) f = .fault r := rfl
@[simp] theorem andThen_refused {α β : Type} (r : Refusal) (f : α → Result β) :
    andThen (.refused r) f = .refused r := rfl

/-- A sequenced operation answers a value exactly when both parts do. -/
theorem andThen_eq_next {α β : Type} {x : Result α} {f : α → Result β} {b : β} :
    andThen x f = .next b ↔ ∃ a, x = .next a ∧ f a = .next b := by
  cases x <;> simp

/-! ### SRC -/

/-- MemRead answers the byte the location holds, inside the address range, and nothing else (R36). -/
theorem memRead_eq_next {m : Memory} {addr : Nat} {b : Byte} :
    memRead m addr = .next b ↔ addr < 6912 ∧ m.lookup addr = some b := by
  unfold memRead
  split
  · next h => cases hl : m.lookup addr <;> simp_all
  · next h => simp_all

/-- An insert lists its own address and the addresses that were listed, no others. -/
theorem insert_keys {m : Memory} {a : Nat} {b : Byte} {x : Host.Cell} (hx : x ∈ m.insert a b) :
    x.1 = a ∨ x ∈ m := by
  induction m with
  | nil => simp_all [Memory.insert]
  | cons c m ih =>
    obtain ⟨k, v⟩ := c
    simp only [Memory.insert] at hx
    split at hx
    · simp only [List.mem_cons] at hx ⊢
      rcases hx with rfl | hx <;> simp_all
    · split at hx
      · simp only [List.mem_cons] at hx ⊢
        rcases hx with rfl | hx <;> simp_all
      · simp only [List.mem_cons] at hx ⊢
        rcases hx with rfl | hx
        · simp
        · rcases ih hx with h | h <;> simp_all

/-- The canonical form, as a proposition. -/
theorem wf_iff {m : Memory} : m.wf = true ↔ m.Pairwise (fun x y => x.1 < y.1) ∧ ∀ x ∈ m, x.1 < 6912 := by
  simp only [Memory.wf, Bool.and_eq_true, decide_eq_true_eq, List.all_eq_true]
  rfl

@[simp] theorem wf_nil : Memory.wf [] = true := rfl

/-- The host's write of an existing location keeps the canonical form. -/
theorem insert_wf {m : Memory} {a : Nat} {b : Byte} (hm : m.wf = true) (ha : a < 6912) :
    (m.insert a b).wf = true := by
  rw [wf_iff] at hm ⊢
  refine ⟨?_, fun x hx => ?_⟩
  · replace hm := hm.1
    induction m with
    | nil => simp [Memory.insert]
    | cons c m ih =>
      obtain ⟨k, v⟩ := c
      obtain ⟨hk, hp⟩ := List.pairwise_cons.1 hm
      simp only [Memory.insert]
      split
      · next h =>
        refine List.pairwise_cons.2 ⟨fun y hy => ?_, List.pairwise_cons.2 ⟨hk, hp⟩⟩
        rcases List.mem_cons.1 hy with rfl | hy
        · exact h
        · exact Nat.lt_trans h (hk y hy)
      · split
        · next h => subst h; exact List.pairwise_cons.2 ⟨hk, hp⟩
        · refine List.pairwise_cons.2 ⟨fun y hy => ?_, ih hp⟩
          rcases insert_keys hy with h | h
          · omega
          · exact hk y h
  · rcases insert_keys hx with h | h
    · omega
    · exact hm.2 x h

/-- What a host write that is taken has done: SRC at that one location, outside a run (R125, R158). -/
theorem hostWriteSrc_eq_next {addr : BitVec 13} {b : Byte} {s t : State} :
    hostWriteSrc addr b s = .next t ↔
      s.st ≠ .run ∧ addr.toNat < 6912 ∧ t = { s with src := s.src.insert addr.toNat b } := by
  unfold hostWriteSrc
  split
  · simp_all
  · split <;> simp_all [eq_comm]

/-! ### The ROMs -/

theorem hdrRom_length : hdrRom.length = 54 := by decide

theorem palBytes_length (n b : Byte) : (palBytes n b).length = 64 := by
  simp [palBytes, palEntry, List.range, List.range.loop]

theorem palRom_length : palRom.length = 64 := palBytes_length _ _

theorem romRead_eq_next {rom : List Byte} {i : Nat} {b : Byte} : romRead rom i = .next b ↔ rom[i]? = some b := by
  unfold romRead
  cases rom[i]? <;> simp

/-- A ROM read inside the ROM answers (R7, R20). -/
theorem romRead_of_lt {rom : List Byte} {i : Nat} (h : i < rom.length) : romRead rom i = .next rom[i] := by
  simp [romRead_eq_next, h]

/-! ### Emit, the advance and the selection -/

/-- An accepted byte is appended and the step commits (R37). -/
theorem emit_accepted {b : Byte} {commit : State → State} {s : State} (h : s.sinkAccepts s.pos = true) :
    emit b commit s = commit { s with out := s.out ++ [b] } := by
  simp [emit, h]

/-- A refused byte raises WriteError and changes nothing else (R37, R138, R139). -/
theorem emit_refused {b : Byte} {commit : State → State} {s : State} (h : s.sinkAccepts s.pos = false) :
    emit b commit s = raise .writeError s := by
  simp [emit, h]

/-- A sequencer step that answers was selected and its IDX was in range (R62, R64). -/
theorem inPhase_eq_next {p : Phase} {last : Nat} {s t : State} {body : Result State} :
    inPhase p last s body = .next t ↔ s.st = .run ∧ s.phase = p ∧ s.idx.toNat ≤ last ∧ body = .next t := by
  unfold inPhase
  split
  · split <;> simp_all
  · simp_all

theorem inPhase_selected {p : Phase} {last : Nat} {s : State} {body : Result State}
    (hs : s.st = .run) (hp : s.phase = p) (hi : s.idx.toNat ≤ last) : inPhase p last s body = body := by
  simp [inPhase, hs, hp, hi]

theorem advance_last {last : Nat} {p : Phase} {s : State} (h : s.idx.toNat = last) :
    advance last p s = { s with phase := p, idx := 0#15 } := by
  simp [advance, h]

theorem advance_within {last : Nat} {p : Phase} {s : State} (h : s.idx.toNat ≠ last) :
    advance last p s = { s with idx := s.idx + 1#15 } := by
  simp [advance, h]

/-! ### Rows -/

theorem rowOk_iff {y : BitVec 8} : rowOk y = true ↔ y.toNat ≤ 191 := by simp [rowOk]

/-- A row operation answers its value on rows 0 to 191 and only there (R64). -/
theorem onRow_eq_next {α : Type} {y : BitVec 8} {v w : α} : onRow y v = .next w ↔ y.toNat ≤ 191 ∧ v = w := by
  unfold onRow
  split <;> simp_all [rowOk]

theorem onRow_of_le {α : Type} {y : BitVec 8} {v : α} (h : y.toNat ≤ 191) : onRow y v = .next v :=
  onRow_eq_next.2 ⟨h, rfl⟩

/-! ### The parameters (R6) -/

theorem lvlN_ne_zero : Config.lvlN ≠ 0#8 := by
  have h := Config.lvlNLessOne.isLt
  intro h0
  have := congrArg BitVec.toNat h0
  simp only [Config.lvlN, BitVec.toNat_ofNat] at this
  omega

theorem lvlB_ne_zero : Config.lvlB ≠ 0#8 := by
  have h := Config.lvlBLessOne.isLt
  intro h0
  have := congrArg BitVec.toNat h0
  simp only [Config.lvlB, BitVec.toNat_ofNat] at this
  omega

end Sys2Proof.Machine
end

