-- ==== Sys2Proof/Laws/Units.lean ====
section
/-! SUPPORT. What each function unit computes, as numbers, and what a strip's two fetches read. -/

namespace Sys2Proof.Machine

theorem flipRow_of_le {k : BitVec 8} (h : k.toNat ≤ 191) : flipRow k = .next (191#8 - k) := onRow_of_le h

theorem flip_toNat {k : BitVec 8} (h : k.toNat ≤ 191) : (191#8 - k).toNat = 191 - k.toNat := by
  rw [BitVec.toNat_sub]; simp; omega

/-- FLIP answers only on rows 0 to 191, and answers 191 - k (R70). -/
theorem flipRow_eq_next {k y : BitVec 8} : flipRow k = .next y ↔ k.toNat ≤ 191 ∧ y.toNat = 191 - k.toNat := by
  unfold flipRow
  rw [onRow_eq_next]
  refine and_congr_right fun h => ⟨fun e => e ▸ flip_toNat h, fun e => ?_⟩
  apply BitVec.eq_of_toNat_eq
  rw [e]
  exact flip_toNat h

theorem interleaveBits_toNat (y : BitVec 8) :
    (interleaveBits y).toNat = 64 * (y.toNat / 64) + 8 * (y.toNat % 8) + y.toNat / 8 % 8 := by
  have := y.isLt
  simp only [interleaveBits, toNat_append_add, toNat_extract]
  omega

/-- Swapping the two 3-bit fields of a row, as numbers: what each field of the result is (R71). -/
theorem swapped_fields (n m : Nat) (h : m = 64 * (n / 64) + 8 * (n % 8) + n / 8 % 8) :
    m / 64 = n / 64 ∧ m % 8 = n / 8 % 8 ∧ m / 8 % 8 = n % 8 := by
  have h1 : n / 8 % 8 < 8 := Nat.mod_lt _ (by decide)
  have h2 : n % 8 < 8 := Nat.mod_lt _ (by decide)
  generalize n / 8 % 8 = c at *
  generalize n % 8 = f at *
  omega

/-- A row is its three fields. -/
theorem row_fields (n : Nat) : n = 64 * (n / 64) + 8 * (n / 8 % 8) + n % 8 := by omega

/-- The address wires of AT: the interleaved row above the column (R72). -/
theorem bitmapOffset_toNat (m : BitVec 8) (ax : BitVec 5) :
    ((m.setWidth 13 <<< 5) ||| ax.setWidth 13).toNat = 32 * m.toNat + ax.toNat := by
  have hm := m.isLt
  have hx := ax.isLt
  have e : (m.setWidth 13 <<< 5).toNat = m.toNat <<< 5 := by
    simp [BitVec.toNat_shiftLeft, Nat.shiftLeft_eq]; omega
  rw [BitVec.toNat_or, e, BitVec.toNat_setWidth, Nat.mod_eq_of_lt (by omega),
    ← Nat.shiftLeft_add_eq_or_of_lt (by omega), Nat.shiftLeft_eq]
  omega

/-- AT answers only on rows 0 to 191, and answers 32 * INTERLEAVE(y) + ax (R72). -/
theorem bitmapOff_eq_next {y : BitVec 8} {ax : BitVec 5} {a : BitVec 13} :
    bitmapOff y ax = .next a ↔
      y.toNat ≤ 191 ∧ a.toNat = 32 * (64 * (y.toNat / 64) + 8 * (y.toNat % 8) + y.toNat / 8 % 8) + ax.toNat := by
  simp only [bitmapOff, interleave, andThen_eq_next, onRow_eq_next]
  constructor
  · rintro ⟨m, ⟨h, rfl⟩, e⟩
    injection e with e
    subst e
    exact ⟨h, by rw [bitmapOffset_toNat, interleaveBits_toNat]⟩
  · rintro ⟨h, e⟩
    refine ⟨_, ⟨h, rfl⟩, congrArg _ (BitVec.eq_of_toNat_eq ?_)⟩
    rw [bitmapOffset_toNat, interleaveBits_toNat, e]

theorem attrOffset_toNat (y : BitVec 8) (ax : BitVec 5) :
    (((y &&& 0xF8#8).setWidth 10 <<< 2) + ax.setWidth 10).toNat = 32 * (y.toNat / 8) + ax.toNat := by
  have hy := y.isLt
  have hx := ax.isLt
  have e : (y &&& 0xF8#8) = y.extractLsb' 3 5 ++ 0#3 := by
    have : ∀ y : BitVec 8, (y &&& 0xF8#8) = y.extractLsb' 3 5 ++ 0#3 := by decide
    exact this y
  rw [e, BitVec.toNat_add, BitVec.toNat_shiftLeft, BitVec.toNat_setWidth, BitVec.toNat_setWidth,
    toNat_append_add, toNat_extract, Nat.shiftLeft_eq]
  simp
  omega

/-- ATTROFF answers only on rows 0 to 191, and answers 32 * (y >> 3) + ax (R73). -/
theorem attrOff_eq_next {y : BitVec 8} {ax : BitVec 5} {o : BitVec 10} :
    attrOff y ax = .next o ↔ y.toNat ≤ 191 ∧ o.toNat = 32 * (y.toNat / 8) + ax.toNat := by
  unfold attrOff
  rw [onRow_eq_next]
  refine and_congr_right fun _ => ⟨fun e => e ▸ attrOffset_toNat y ax, fun e => ?_⟩
  exact BitVec.eq_of_toNat_eq (by rw [attrOffset_toNat, e])

/-- ATTRADDR is 6144 more than ATTROFF (R73). -/
theorem attrAddr_eq_next {y : BitVec 8} {ax : BitVec 5} {a : BitVec 13} :
    attrAddr y ax = .next a ↔ y.toNat ≤ 191 ∧ a.toNat = 6144 + 32 * (y.toNat / 8) + ax.toNat := by
  have hx := ax.isLt
  have hy := y.isLt
  simp only [attrAddr, andThen_eq_next, attrOff_eq_next]
  have key : ∀ o : BitVec 10, o.toNat = 32 * (y.toNat / 8) + ax.toNat →
      y.toNat ≤ 191 → (BitVec.ofNat 13 Config.attrBase + o.setWidth 13).toNat = 6144 + 32 * (y.toNat / 8) + ax.toNat := by
    intro o e h
    rw [BitVec.toNat_add, BitVec.toNat_setWidth, e]
    simp
    omega
  constructor
  · rintro ⟨o, ⟨h, e⟩, e'⟩
    injection e' with e'
    subst e'
    exact ⟨h, key o e h⟩
  · rintro ⟨h, e⟩
    have ho : (BitVec.ofNat 10 (32 * (y.toNat / 8) + ax.toNat)).toNat = 32 * (y.toNat / 8) + ax.toNat := by
      rw [BitVec.toNat_ofNat]; omega
    refine ⟨_, ⟨h, ho⟩, congrArg _ (BitVec.eq_of_toNat_eq ?_)⟩
    rw [key _ ho h, e]

/-- The attribute fetch of a strip reads SRC at 6144 + 32 * (y >> 3) + ax (R101). -/
theorem fetchAttr_of_le {src : Memory} {y : BitVec 8} {ax : BitVec 5} (h : y.toNat ≤ 191) :
    fetchAttr src y ax = memRead src (6144 + 32 * (y.toNat / 8) + ax.toNat) := by
  have hx := ax.isLt
  have ha : (BitVec.ofNat 13 (6144 + 32 * (y.toNat / 8) + ax.toNat)).toNat = 6144 + 32 * (y.toNat / 8) + ax.toNat := by
    rw [BitVec.toNat_ofNat]; omega
  rw [fetchAttr, attrAddr_eq_next.2 ⟨h, ha⟩, andThen_next, ha]

/-- The pixel fetch of a strip reads SRC at the interleaved line of y, column ax (R101). -/
theorem fetchPix_of_le {src : Memory} {y : BitVec 8} {ax : BitVec 5} (h : y.toNat ≤ 191) :
    fetchPix src y ax =
      memRead src (32 * (64 * (y.toNat / 64) + 8 * (y.toNat % 8) + y.toNat / 8 % 8) + ax.toNat) := by
  have hx := ax.isLt
  have ha : (BitVec.ofNat 13 (32 * (64 * (y.toNat / 64) + 8 * (y.toNat % 8) + y.toNat / 8 % 8) + ax.toNat)).toNat =
      32 * (64 * (y.toNat / 64) + 8 * (y.toNat % 8) + y.toNat / 8 % 8) + ax.toNat := by
    rw [BitVec.toNat_ofNat]; omega
  rw [fetchPix, bitmapOff_eq_next.2 ⟨h, ha⟩, andThen_next, ha]

/-! ### The views of IDX as numbers (R11) -/

theorem k_toNat (s : State) : s.k.toNat = s.idx.toNat / 128 := by
  have := s.idx.isLt
  simp only [State.k, toNat_extract]
  omega

theorem ax_toNat (s : State) : s.ax.toNat = s.idx.toNat / 4 % 32 := by
  simp only [State.ax, toNat_extract]; omega

theorem i_toNat (s : State) : s.i.toNat = s.idx.toNat % 4 := by
  simp only [State.i, toNat_extract]; omega

theorem i_eq_zero_iff (s : State) : s.i = 0#2 ↔ s.idx.toNat % 4 = 0 := by
  rw [← i_toNat]
  exact ⟨fun h => by rw [h]; rfl, fun h => BitVec.eq_of_toNat_eq h⟩

theorem k_le {s : State} (h : s.idx.toNat ≤ 24575) : s.k.toNat ≤ 191 := by rw [k_toNat]; omega

/-- Y, the screen row of the strip being emitted, as a number (R11). -/
theorem y_toNat {s : State} (h : s.idx.toNat ≤ 24575) : (191#8 - s.k).toNat = 191 - s.idx.toNat / 128 := by
  rw [flip_toNat (k_le h), k_toNat]

/-! ### MemRead by what the location holds (R36) -/

theorem memRead_some {m : Memory} {a : Nat} {b : Byte} (h : a < 6912) (hm : m.lookup a = some b) :
    memRead m a = .next b := memRead_eq_next.2 ⟨h, hm⟩

theorem memRead_none {m : Memory} {a : Nat} (h : a < 6912) (hm : m.lookup a = none) :
    memRead m a = .refused (.srcHoldsNoValue a) := by
  simp [memRead, h, hm]

end Sys2Proof.Machine
end

