-- ==== Sys2Proof/Laws/Exec.lean ====
section
/-! SUPPORT. What each operation and each step can do when it answers a next state, said once. -/

namespace Sys2Proof.Machine

/-- The two outcomes of an emitting step: the byte is appended and the step commits, or WriteError (R37). -/
theorem emit_cases {b : Byte} {commit : State → State} {s t : State} (h : emit b commit s = t) :
    (s.sinkAccepts s.pos = true ∧ t = commit { s with out := s.out ++ [b] }) ∨
      (s.sinkAccepts s.pos = false ∧ t = raise .writeError s) := by
  subst h
  cases hs : s.sinkAccepts s.pos
  · exact .inr ⟨rfl, emit_refused hs⟩
  · exact .inl ⟨rfl, emit_accepted hs⟩

/-- An EMIT.HDR that answers was selected and read HDR_ROM[IDX] (R115). -/
theorem execEmitHdr_cases {s t : State} (h : execEmitHdr s = .next t) :
    s.st = .run ∧ s.phase = .hdr ∧ s.idx.toNat ≤ 53 ∧ ∃ b, hdrRom[s.idx.toNat]? = some b ∧
      t = emit b (advance 53 .pal) s := by
  obtain ⟨hs, hp, hi, hb⟩ := inPhase_eq_next.1 h
  obtain ⟨b, hb, e⟩ := andThen_eq_next.1 hb
  injection e with e
  exact ⟨hs, hp, hi, b, romRead_eq_next.1 hb, e.symm⟩

/-- An EMIT.PAL that answers was selected and read PAL_ROM[IDX] (R116). -/
theorem execEmitPal_cases {s t : State} (h : execEmitPal s = .next t) :
    s.st = .run ∧ s.phase = .pal ∧ s.idx.toNat ≤ 63 ∧ ∃ b, palRom[s.idx.toNat]? = some b ∧
      t = emit b (advance 63 .pix) s := by
  obtain ⟨hs, hp, hi, hb⟩ := inPhase_eq_next.1 h
  obtain ⟨b, hb, e⟩ := andThen_eq_next.1 hb
  injection e with e
  exact ⟨hs, hp, hi, b, romRead_eq_next.1 hb, e.symm⟩

/-- An EMIT.PIX that answers was selected and had its strip's two bytes (R101). -/
theorem execEmitPix_cases {s t : State} (h : execEmitPix s = .next t) :
    s.st = .run ∧ s.phase = .pix ∧ s.idx.toNat ≤ 24575 ∧ ∃ a p, stripBytes s = .next (a, p) ∧
      t = emit (pixelByte a p s.i) (fun u => advance 24575 .fin (latchStrip a p u)) s := by
  obtain ⟨hs, hp, hi, hb⟩ := inPhase_eq_next.1 h
  obtain ⟨⟨a, p⟩, hb, e⟩ := andThen_eq_next.1 hb
  injection e with e
  exact ⟨hs, hp, hi, a, p, hb, e.symm⟩

/-- An END that answers was selected (R117). -/
theorem execEndRun_cases {s t : State} (h : execEndRun s = .next t) :
    s.st = .run ∧ s.phase = .fin ∧ t = { s with st := .done } := by
  unfold execEndRun at h
  split at h
  · next hs => injection h with h; exact ⟨hs.1, hs.2, h.symm⟩
  · cases h

/-- The three outcomes of START (R126). -/
theorem execStart_cases {len : Nat} {s t : State} (h : execStart len s = .next t) :
    (s.st ≠ .idle ∧ t = s) ∨ (s.st = .idle ∧ len < 6912 ∧ t = raise .inputLength s) ∨
      (s.st = .idle ∧ 6912 ≤ len ∧ t = beginRun s) := by
  unfold execStart at h
  split at h
  · next hs => injection h with h; exact .inl ⟨hs, h.symm⟩
  · next hs =>
    have hs : s.st = .idle := not_not.1 hs
    split at h
    · next hl => injection h with h; exact .inr (.inl ⟨hs, by simpa using hl, h.symm⟩)
    · next hl => injection h with h; exact .inr (.inr ⟨hs, by simpa using hl, h.symm⟩)

/-- A function unit that answers has shown a result and done nothing else (R62). -/
theorem execUnit_cases {i : Instr} {u : FnUnit} {s t : State} (hi : i.space = .wired u) (h : exec i s = .next t) :
    ∃ o, t = showUnit o s := by
  cases i <;> simp only [Instr.space, reduceCtorEq, Space.wired.injEq] at hi <;> simp only [exec] at h
  case flip => obtain ⟨_, _, e⟩ := andThen_eq_next.1 h; injection e with e; exact ⟨_, e.symm⟩
  case interleave => obtain ⟨_, _, e⟩ := andThen_eq_next.1 h; injection e with e; exact ⟨_, e.symm⟩
  case translate => obtain ⟨_, _, e⟩ := andThen_eq_next.1 h; injection e with e; exact ⟨_, e.symm⟩
  case attrOff => obtain ⟨_, _, e⟩ := andThen_eq_next.1 h; injection e with e; exact ⟨_, e.symm⟩
  case colorMap => injection h with h; exact ⟨_, h.symm⟩
  case pack => injection h with h; exact ⟨_, h.symm⟩

/-- What an operation of the instruction type can do, one line a shape. -/
theorem exec_cases {i : Instr} {s t : State} (h : exec i s = .next t) :
    (∃ u o, i.space = .wired u ∧ t = showUnit o s) ∨
    (i = .emitHdr ∧ execEmitHdr s = .next t) ∨ (i = .emitPal ∧ execEmitPal s = .next t) ∨
    (i = .emitPix ∧ execEmitPix s = .next t) ∨ (i = .endRun ∧ execEndRun s = .next t) ∨
    (∃ n, i = .start n ∧ execStart n s = .next t) ∨ (∃ b, i = .reset b ∧ t = resetCore s) ∨
    (i = .nop ∧ t = s) := by
  cases i
  case flip => exact .inl ⟨_, (execUnit_cases rfl h).imp fun _ e => ⟨rfl, e⟩⟩
  case interleave => exact .inl ⟨_, (execUnit_cases rfl h).imp fun _ e => ⟨rfl, e⟩⟩
  case translate => exact .inl ⟨_, (execUnit_cases rfl h).imp fun _ e => ⟨rfl, e⟩⟩
  case attrOff => exact .inl ⟨_, (execUnit_cases rfl h).imp fun _ e => ⟨rfl, e⟩⟩
  case colorMap => exact .inl ⟨_, (execUnit_cases rfl h).imp fun _ e => ⟨rfl, e⟩⟩
  case pack => exact .inl ⟨_, (execUnit_cases rfl h).imp fun _ e => ⟨rfl, e⟩⟩
  case emitHdr => exact .inr (.inl ⟨rfl, h⟩)
  case emitPal => exact .inr (.inr (.inl ⟨rfl, h⟩))
  case emitPix => exact .inr (.inr (.inr (.inl ⟨rfl, h⟩)))
  case endRun => exact .inr (.inr (.inr (.inr (.inl ⟨rfl, h⟩))))
  case start n => exact .inr (.inr (.inr (.inr (.inr (.inl ⟨n, rfl, h⟩)))))
  case reset b => injection h with h; exact .inr (.inr (.inr (.inr (.inr (.inr (.inl ⟨b, rfl, h.symm⟩))))))
  case nop => injection h with h; exact .inr (.inr (.inr (.inr (.inr (.inr (.inr ⟨rfl, h.symm⟩))))))

/-! ### The operation selected (R61, R62) -/

theorem decodePhase_code (p : Phase) :
    decodePhase p.code = match p with | .hdr => .emitHdr | .pal => .emitPal | .pix => .emitPix | .fin => .endRun := by
  cases p <;> rfl

theorem selectOp_run {len : Nat} {s : State} (h : s.st = .run) : selectOp 0#2 len s = decodePhase s.phase.code := by
  simp [selectOp, h]

theorem selectOp_command {c : BitVec 2} {len : Nat} {s : State} (h : c ≠ 0#2 ∨ s.st ≠ .run) :
    selectOp c len s = decodeCmd c len := by
  unfold selectOp
  rw [if_neg]
  rcases h with h | h
  · exact fun hc => h hc.1
  · exact fun hc => h hc.2

/-! ### The step -/

theorem step_no_input {s : State} (h : s.inputs = []) : step s = exec (selectOp 0#2 0 s) s := by
  have : consumeInput s = s := by unfold consumeInput; rw [h]; cases s; simp_all
  simp [step, nextRequest, h, this]

theorem step_command {s : State} {c : BitVec 2} {len : Nat} {rest : List HostInput}
    (h : s.inputs = .command c len :: rest) : step s = exec (selectOp c len s) { s with inputs := rest } := by
  simp [step, nextRequest, h, consumeInput]

theorem step_srcWrite {s : State} {a : BitVec 13} {b : Byte} {rest : List HostInput}
    (h : s.inputs = .srcWrite a b :: rest) : step s = hostWriteSrc a b { s with inputs := rest } := by
  simp [step, nextRequest, h, consumeInput]

theorem step_prepareSink {s : State} {fs : List Nat} {rest : List HostInput}
    (h : s.inputs = .prepareSink fs :: rest) : step s = .next { s with inputs := rest, sinkFails := fs } := by
  simp [step, nextRequest, h, consumeInput, withSink]

theorem step_unit {s : State} {u : FnUnit} {word : List Byte} {rest : List HostInput}
    (h : s.inputs = .unit u word :: rest) :
    step s = match decodeWired u word with
      | .ok i => exec i { s with inputs := rest }
      | .error e => .refused (.undecodable e) := by
  simp only [step, nextRequest, h, consumeInput, List.tail]
  cases decodeWired u word <;> rfl

/-- What a step can do when it answers: an operation selected by the codes, an operation on a unit's wires, a host
write outside a run, or a new sink; in every case on the state with the input taken removed. -/
theorem step_cases {s t : State} (h : step s = .next t) :
    (s.inputs = [] ∧ exec (selectOp 0#2 0 s) s = .next t) ∨
    (∃ c len rest, s.inputs = .command c len :: rest ∧
      exec (selectOp c len s) { s with inputs := rest } = .next t) ∨
    (∃ u word rest i, s.inputs = .unit u word :: rest ∧ decodeWired u word = .ok i ∧
      exec i { s with inputs := rest } = .next t) ∨
    (∃ a b rest, s.inputs = .srcWrite a b :: rest ∧ s.st ≠ .run ∧ a.toNat < 6912 ∧
      t = { s with inputs := rest, src := s.src.insert a.toNat b }) ∨
    (∃ fs rest, s.inputs = .prepareSink fs :: rest ∧ t = { s with inputs := rest, sinkFails := fs }) := by
  cases hin : s.inputs with
  | nil => exact .inl ⟨rfl, step_no_input hin ▸ h⟩
  | cons x rest =>
    cases x with
    | command c len => exact .inr (.inl ⟨c, len, rest, rfl, step_command hin ▸ h⟩)
    | srcWrite a b =>
      obtain ⟨hs, ha, ht⟩ := hostWriteSrc_eq_next.1 (step_srcWrite hin ▸ h)
      exact .inr (.inr (.inr (.inl ⟨a, b, rest, rfl, hs, ha, ht⟩)))
    | prepareSink fs =>
      rw [step_prepareSink hin] at h
      injection h with h
      exact .inr (.inr (.inr (.inr ⟨fs, rest, rfl, h.symm⟩)))
    | unit u word =>
      rw [step_unit hin] at h
      cases hd : decodeWired u word with
      | ok i => rw [hd] at h; exact .inr (.inr (.inl ⟨u, word, rest, i, rfl, hd, h⟩))
      | error e => rw [hd] at h; cases h

/-- The decoder of a unit's wires gives an operation of that unit. -/
theorem decodeWired_space {u : FnUnit} {bs : List Byte} {i : Instr} (h : decodeWired u bs = .ok i) :
    i.space = .wired u := by
  unfold decodeWired withRow at h
  repeat' split at h
  all_goals first | (injection h with h; subst h; rfl) | cases h

end Sys2Proof.Machine
end

