-- ==== Sys2Proof/Laws/PerInstr.lean ====
section
/-! SUPPORT. Statements made once per operation (LAWS.json). -/

namespace Sys2Proof.Laws.WordLength

/-- The bytes of a space's word; none for CMD, whose LEN is a natural number of any size. -/
def wordBytes : Space → Option Nat
  | .wired .flip => some 1
  | .wired .interleave => some 1
  | .wired .translate => some 2
  | .wired .attrOff => some 2
  | .wired .colorMap => some 1
  | .wired .pack => some 4
  | .phase => some 1
  | .cmd => none

/-- The word of an operation has at least its select or operand byte, and the one length of its space (R65). -/
def Statement (i : Instr) : Prop :=
  0 < (encode i).length ∧ ∀ n, wordBytes i.space = some n → (encode i).length = n

theorem flip (k : BitVec 8) : Statement (.flip k) := by simp [Statement, encode, Instr.space, wordBytes]
theorem interleave (y : BitVec 8) : Statement (.interleave y) := by
  simp [Statement, encode, Instr.space, wordBytes]
theorem translate (y : BitVec 8) (ax : BitVec 5) : Statement (.translate y ax) := by
  simp [Statement, encode, Instr.space, wordBytes]
theorem attrOff (y : BitVec 8) (ax : BitVec 5) : Statement (.attrOff y ax) := by
  simp [Statement, encode, Instr.space, wordBytes]
theorem colorMap (attr : Byte) : Statement (.colorMap attr) := by
  simp [Statement, encode, Instr.space, wordBytes]
theorem pack (pix : Byte) (ink paper : Nib) (i : BitVec 2) : Statement (.pack pix ink paper i) := by
  simp [Statement, encode, Instr.space, wordBytes]
theorem emitHdr : Statement .emitHdr := by simp [Statement, encode, Instr.space, wordBytes]
theorem emitPal : Statement .emitPal := by simp [Statement, encode, Instr.space, wordBytes]
theorem emitPix : Statement .emitPix := by simp [Statement, encode, Instr.space, wordBytes]
theorem endRun : Statement .endRun := by simp [Statement, encode, Instr.space, wordBytes]
theorem start (len : Nat) : Statement (.start len) := by simp [Statement, encode, Instr.space, wordBytes]
theorem reset (s : BitVec 1) : Statement (.reset s) := by simp [Statement, encode, Instr.space, wordBytes]
theorem nop : Statement .nop := by simp [Statement, encode, Instr.space, wordBytes]

end Sys2Proof.Laws.WordLength
end

