-- ==== Sys2Proof/Tests/Slice0.lean ====
section
/-! SUPPORT. Small tests with expected values from spec/95_test_vectors.md, and a witness for the hypotheses of each
statement. One step each. -/

namespace Sys2Proof.Tests

open Sys2Proof Sys2Proof.Machine

/-- The next state, if the operation answers one. -/
def answer {α : Type} (r : Result α) : Option α :=
  match r with
  | .next a => some a
  | .fault _ => none
  | .refused _ => none

/-- A run standing at (p, n) with nothing loaded and a sink that accepts. -/
def runAt (p : Phase) (n : Nat) : State := { State.reset with st := .run, phase := p, idx := BitVec.ofNat 15 n }

/-- A run at (PIX, 0) over the two bytes program P7 has for its first strip (vector T1). -/
def firstStrip : State := { runAt .pix 0 with src := [(6112, 0xDF#8), (6880, 0xF7#8)] }

/-- The run of P7 inside its first strip, after `n` bytes of it, at the counts the invariant asks for. -/
def insideStrip (n : Nat) : State :=
  { firstStrip with
    idx := BitVec.ofNat 15 n, attr := 0xF7#8, pix := 0xDF#8, out := List.replicate (118 + n) 0#8
    fetched := some ⟨0#8, 0#5, 0xF7#8, 0xDF#8⟩ }

/-- What RESET states: ST, PHASE, IDX, CAUSE, SRC and OUT. -/
def resetView (s : State) : St × Phase × BitVec 15 × Cause × Memory × List Byte :=
  (s.st, s.phase, s.idx, s.cause, s.src, s.out)

/-- The reset machine with these inputs to come. -/
def withInputs (l : List HostInput) : State := { State.reset with inputs := l }

/-! ### Well-formed operands (R64) -/

theorem test_flip_row_192_ill_formed : (Instr.flip 192#8).wellFormed = false ∧ (Instr.flip 191#8).wellFormed = true := by
  decide
theorem test_interleave_row_192_ill_formed :
    (Instr.interleave 192#8).wellFormed = false ∧ (Instr.interleave 191#8).wellFormed = true := by decide
theorem test_translate_row_192_ill_formed :
    (Instr.translate 192#8 0#5).wellFormed = false ∧ (Instr.translate 191#8 31#5).wellFormed = true := by decide
theorem test_attrOff_row_192_ill_formed :
    (Instr.attrOff 192#8 0#5).wellFormed = false ∧ (Instr.attrOff 191#8 31#5).wellFormed = true := by decide

/-! ### Words written out from the formats (R51 to R61) -/

/-- F-K kkkkkkkk, k = 100 (R59). -/
theorem test_decode_flip : decode (.wired .flip) [0b01100100#8] = .ok (.flip 100#8) := by rfl
/-- ttcccfff with t = 00, c = 001, f = 001: y = 9 (R53). -/
theorem test_decode_interleave : decode (.wired .interleave) [0b00001001#8] = .ok (.interleave 9#8) := by rfl
/-- ttcccfffxxxxx = 00 001 001 00101: y = 9, ax = 5 (R53). -/
theorem test_decode_translate :
    decode (.wired .translate) [0b00100101#8, 0b00000001#8] = .ok (.translate 9#8 5#5) := by rfl
/-- ttcccfffxxxxx = 10 111 111 11111: y = 191, ax = 31 (R53). -/
theorem test_decode_attrOff :
    decode (.wired .attrOff) [0b11111111#8, 0b00010111#8] = .ok (.attrOff 191#8 31#5) := by rfl
/-- FBPPPNNN = 0 1 000 111 (R51). -/
theorem test_decode_colorMap : decode (.wired .colorMap) [0b01000111#8] = .ok (.colorMap 0x47#8) := by rfl
/-- abcdefgh = 1010 0101 with ink 15, paper 8, group 2, a byte each (R52; log 10). -/
theorem test_decode_pack :
    decode (.wired .pack) [0b10100101#8, 0x0F#8, 0x08#8, 0x02#8] = .ok (.pack 0xA5#8 15#4 8#4 2#2) := by rfl
/-- PHASE 00, 01, 10, 11 (R13, R62). -/
theorem test_decode_emitHdr : decode .phase [0b00#8] = .ok .emitHdr := by rfl
theorem test_decode_emitPal : decode .phase [0b01#8] = .ok .emitPal := by rfl
theorem test_decode_emitPix : decode .phase [0b10#8] = .ok .emitPix := by rfl
theorem test_decode_endRun : decode .phase [0b11#8] = .ok .endRun := by rfl
/-- CMD rs: 01 START with LEN 0x1B00 = 6912, 1s RESET, 00 NOP (R61). -/
theorem test_decode_start : decode .cmd [0b01#8, 0x00#8, 0x1B#8] = .ok (.start 6912) := by rfl
theorem test_decode_reset : decode .cmd [0b10#8] = .ok (.reset 0#1) ∧ decode .cmd [0b11#8] = .ok (.reset 1#1) := by
  exact ⟨rfl, rfl⟩
theorem test_decode_nop : decode .cmd [0b00#8] = .ok .nop := by rfl
/-- Row 192 is refused by name in every unit that takes a row (R64). -/
theorem test_decode_refuses_row_192 :
    decode (.wired .flip) [192#8] = .error (.rowOutsideDomain 192#8) ∧
    decode (.wired .interleave) [192#8] = .error (.rowOutsideDomain 192#8) ∧
    decode (.wired .translate) [0#8, 0b00011000#8] = .error (.rowOutsideDomain 192#8) ∧
    decode (.wired .attrOff) [0#8, 0b00011000#8] = .error (.rowOutsideDomain 192#8) := ⟨rfl, rfl, rfl, rfl⟩
/-- A 2-bit code has no third bit, a 13-bit word no fourteenth, and a word has one length (R65). -/
theorem test_decode_refuses_other_bytes :
    decode .phase [0b100#8] = .error .bitsAboveWord ∧
    decode (.wired .translate) [0#8, 0b00100000#8] = .error .bitsAboveWord ∧
    decode (.wired .flip) [0#8, 0#8] = .error .wrongLength := ⟨rfl, rfl, rfl⟩
/-- The table words of the sequencer's select codes, and AT's. -/
theorem test_table_words :
    decodeTableWord 2 0 = some .emitHdr ∧ decodeTableWord 8 1 = some .emitPal ∧ decodeTableWord 8 2 = some .emitPix ∧
    decodeTableWord 8 3 = some .endRun ∧ decodeTableWord 16 0x125 = some (.translate 9#8 5#5) ∧
    decodeTableWord 8 0x64 = some (.flip 100#8) := ⟨rfl, rfl, rfl, rfl, rfl, rfl⟩

/-! ### The address translator (vectors 2.1 to 2.3) -/

theorem test_flip : answer (flipRow 0#8) = some 191#8 ∧ answer (flipRow 100#8) = some 91#8 ∧
    answer (flipRow 191#8) = some 0#8 := by decide
theorem test_flip_refused : flipRow 192#8 = .refused (.rowOutsideDomain 192#8) := by rfl
theorem test_interleave : answer (interleave 9#8) = some 9#8 ∧ answer (interleave 7#8) = some 56#8 ∧
    answer (interleave 65#8) = some 72#8 ∧ answer (interleave 190#8) = some 183#8 := by decide
theorem test_translate : answer (bitmapOff 9#8 5#5) = some 293#13 ∧ answer (bitmapOff 100#8 17#5) = some 3217#13 ∧
    answer (bitmapOff 191#8 31#5) = some 6143#13 := by decide
theorem test_translate_refused : bitmapOff 192#8 0#5 = .refused (.rowOutsideDomain 192#8) := by rfl
theorem test_attrOff : answer (attrOff 9#8 5#5) = some 37#10 ∧ answer (attrOff 191#8 31#5) = some 767#10 ∧
    answer (attrAddr 100#8 17#5) = some 6545#13 := by decide
theorem test_attrOff_refused : attrOff 255#8 31#5 = .refused (.rowOutsideDomain 255#8) := by rfl

/-! ### The colour mapper and the packer (vectors 2.4, 2.5) -/

theorem test_colorMap : inkIndex 0x0F#8 = 7#4 ∧ paperIndex 0x0F#8 = 1#4 ∧ inkIndex 0x47#8 = 15#4 ∧
    paperIndex 0x47#8 = 8#4 ∧ inkIndex 0xB8#8 = 0#4 ∧ paperIndex 0xB8#8 = 7#4 := by decide
theorem test_colorMap_bright_alone : inkIndex 0x40#8 = 8#4 ∧ paperIndex 0x40#8 = 8#4 := by decide
theorem test_pack : packByte 0xA5#8 15#4 8#4 0#2 = 0xF8#8 ∧ packByte 0xA5#8 15#4 8#4 3#2 = 0x8F#8 := by decide
theorem test_strip : strip 0x80#8 0x47#8 = [0xF8#8, 0x88#8, 0x88#8, 0x88#8] ∧
    strip 0xC3#8 0x29#8 = [0x11#8, 0x55#8, 0x55#8, 0x11#8] ∧ strip 0xFF#8 0x38#8 = [0#8, 0#8, 0#8, 0#8] := by decide

/-! ### The ROMs (vectors 2.6) -/

theorem test_header_sum : (hdrRom.map BitVec.toNat).sum = 809 := by decide
theorem test_palette_at_defaults :
    palBytes 0xD7#8 0xFF#8 =
      ([0#8, 0#8, 0#8, 0#8, 0xD7#8, 0#8, 0#8, 0#8, 0#8, 0#8, 0xD7#8, 0#8, 0xD7#8, 0#8, 0xD7#8, 0#8]
        ++ [0#8, 0xD7#8, 0#8, 0#8, 0xD7#8, 0xD7#8, 0#8, 0#8, 0#8, 0xD7#8, 0xD7#8, 0#8, 0xD7#8, 0xD7#8, 0xD7#8, 0#8])
        ++ ([0#8, 0#8, 0#8, 0#8, 0xFF#8, 0#8, 0#8, 0#8, 0#8, 0#8, 0xFF#8, 0#8, 0xFF#8, 0#8, 0xFF#8, 0#8]
        ++ [0#8, 0xFF#8, 0#8, 0#8, 0xFF#8, 0xFF#8, 0#8, 0#8, 0#8, 0xFF#8, 0xFF#8, 0#8, 0xFF#8, 0xFF#8, 0xFF#8, 0#8]) := by
  decide

/-! ### Sequencer steps (vectors 2.7, T1) -/

theorem test_emitHdr_first : step (runAt .hdr 0) = .next { runAt .hdr 1 with out := [0x42#8] } := by rfl
theorem test_emitHdr_last : step (runAt .hdr 53) = .next { runAt .pal 0 with out := [0x00#8] } := by rfl
theorem test_emitPal_entry_one : step (runAt .pal 4) = .next { runAt .pal 5 with out := [Config.lvlN] } := by rfl
theorem test_emitPal_last : step (runAt .pal 63) = .next { runAt .pix 0 with out := [0x00#8] } := by rfl
theorem test_emitPix_fetches : step firstStrip =
    .next { firstStrip with
      idx := 1#15, attr := 0xF7#8, pix := 0xDF#8, out := [0xFF#8]
      fetched := some ⟨0#8, 0#5, 0xF7#8, 0xDF#8⟩ } := by rfl
theorem test_emitPix_from_latches :
    step { runAt .pix 24575 with attr := 0x81#8, pix := 0xC1#8 } =
      .next { runAt .fin 0 with attr := 0x81#8, pix := 0xC1#8, out := [0x01#8] } := by rfl
theorem test_endRun : step (runAt .fin 0) = .next { runAt .fin 0 with st := .done } := by rfl

/-! ### Commands and faults (vectors 2.8, programs P5, P6) -/

theorem test_start : step { withInputs [.command 1#2 6912] with out := [9#8] } = .next (runAt .hdr 0) := by rfl
theorem test_start_short : step { withInputs [.command 1#2 6911] with out := [9#8] } =
    .next { State.reset with st := .fault, cause := .inputLength, out := [9#8] } := by rfl
theorem test_reset_beats_start :
    (answer (step { insideStrip 1 with inputs := [.command 3#2 6912], out := [9#8] })).map resetView =
      some (.idle, .hdr, 0#15, .none, [], [9#8]) := by rfl
theorem test_reset_leaves_fault :
    (answer (step { runAt .pal 6 with st := .fault, cause := .writeError, inputs := [.command 2#2 0] })).map resetView =
      some (.idle, .hdr, 0#15, .none, [], []) := by rfl
theorem test_nop_in_fault : step { State.reset with st := .fault, cause := .inputLength } =
    .next { State.reset with st := .fault, cause := .inputLength } := by rfl
theorem test_start_ignored_in_run :
    step { runAt .pal 6 with inputs := [.command 1#2 6912] } = .next (runAt .pal 6) := by rfl
/-- P5(a): the sink fails at position 60. -/
theorem test_write_error : step { runAt .pal 6 with sinkFails := [60] } =
    .next { runAt .pal 6 with sinkFails := [60], st := .fault, cause := .writeError } := by rfl

/-! ### Witnesses: for each statement with hypotheses, a state and operands that meet them, at the ends of the ranges -/

/-- One byte per location, from a formula. -/
@[irreducible] def fullDump : Memory := (List.range 6912).map fun a => (a, BitVec.ofNat 8 (31 * a + a / 32))

theorem lookup_map_of_mem (g : Nat → Byte) (l : List Nat) (a : Nat) (h : a ∈ l) :
    Memory.lookup (l.map fun a => (a, g a)) a = some (g a) := by
  induction l with
  | nil => simp at h
  | cons k l ih =>
    simp only [List.map_cons, Memory.lookup]
    split
    · next e => rw [e]
    · next e => exact ih (by simpa [e] using h)

/-- A fully loaded SRC exists: the content of program P7. -/
theorem test_witness_loaded : fullDump.loaded := by
  intro a ha
  have h : a ∈ List.range 6912 := List.mem_range.2 ha
  unfold fullDump
  rw [lookup_map_of_mem _ _ a h]
  rfl

theorem fullDump_wf : fullDump.wf = true := by
  unfold fullDump
  rw [wf_iff]
  refine ⟨?_, ?_⟩
  · rw [List.pairwise_map]
    exact List.pairwise_lt_range
  · intro x hx
    obtain ⟨a, ha, rfl⟩ := List.mem_map.1 hx
    simpa using ha

/-- Rows at both ends of the domain, and the first and last row outside it. -/
theorem test_witness_rows : (0#8).toNat ≤ 191 ∧ (191#8).toNat ≤ 191 ∧ 191 < (192#8).toNat ∧ 191 < (255#8).toNat := by
  decide
/-- TranslationIsABijection and AttributeAddressFromPixelAddress: addresses, offsets and rows at the ends. -/
theorem test_witness_addresses :
    (6143#13).toNat ≤ 6143 ∧ (767#10).toNat ≤ 767 ∧ bitmapOff 0#8 0#5 = .next 0#13 ∧ attrAddr 0#8 0#5 = .next 6144#13 ∧
    bitmapOff 191#8 31#5 = .next 6143#13 ∧ attrAddr 191#8 31#5 = .next 6911#13 :=
  ⟨by decide, by decide, rfl, rfl, rfl, rfl⟩
/-- FunctionUnitsArePure: an operation of a unit that answers. -/
theorem test_witness_unit_answers : (Instr.flip 0#8).space = .wired .flip ∧
    exec (.flip 0#8) State.reset = .next { State.reset with unitOut := some (.screenRow 191#8) } := ⟨rfl, rfl⟩
/-- PaletteRomByEntries: an entry without and one with the bright bit. -/
theorem test_witness_palette_level :
    Config.lvlN = (if (7#4).getLsbD 3 then Config.lvlB else Config.lvlN) ∧
    Config.lvlB = (if (15#4).getLsbD 3 then Config.lvlB else Config.lvlN) := ⟨rfl, rfl⟩
/-- ViewsOfTheIndex: PIX at 24575 is K = 191, AX = 31, I = 3 (vectors 2.7). -/
theorem test_views : (runAt .pix 24575).k = 191#8 ∧ (runAt .pix 24575).ax = 31#5 ∧ (runAt .pix 24575).i = 3#2 ∧
    (runAt .pix 24575).pos = 24693 ∧ (runAt .pal 63).pos = 117 ∧ (runAt .fin 0).pos = 24694 := by decide
/-- EmitHdrEmitsAHeaderByte at 0 and 53, accepted and refused. -/
theorem test_witness_emitHdr :
    (runAt .hdr 0).st = .run ∧ (runAt .hdr 0).phase = .hdr ∧ (runAt .hdr 0).idx.toNat ≤ 53 ∧
    (runAt .hdr 53).idx.toNat = 53 ∧ (runAt .hdr 53).sinkAccepts 53 = true ∧
    State.sinkAccepts { runAt .hdr 53 with sinkFails := [53] } 53 = false := by decide
/-- EmitPalEmitsAPaletteByte at 0 and 63, accepted and refused. -/
theorem test_witness_emitPal :
    (runAt .pal 0).st = .run ∧ (runAt .pal 0).phase = .pal ∧ (runAt .pal 0).idx.toNat ≤ 63 ∧
    (runAt .pal 63).idx.toNat = 63 ∧ (runAt .pal 63).sinkAccepts 117 = true ∧
    State.sinkAccepts { runAt .pal 63 with sinkFails := [117] } 117 = false := by decide
/-- EmitPixEmitsAPixelByte at I = 0 (k = 0, ax = 0, y = 191) and from the latches at 24575, accepted and refused. -/
theorem test_witness_emitPix :
    firstStrip.st = .run ∧ firstStrip.phase = .pix ∧ firstStrip.idx.toNat = 0 ∧
    firstStrip.src.lookup (6144 + 32 * (191 / 8) + 0) = some 0xF7#8 ∧
    firstStrip.src.lookup (2048 * (191 / 64) + 256 * (191 % 8) + 32 * (191 / 8 % 8) + 0) = some 0xDF#8 ∧
    (insideStrip 24575).st = .run ∧ (insideStrip 24575).phase = .pix ∧
    (insideStrip 24575).idx.toNat = 24575 ∧ (insideStrip 24575).attr = 0xF7#8 ∧
    (insideStrip 24575).pix = 0xDF#8 ∧ firstStrip.sinkAccepts 118 = true ∧
    State.sinkAccepts { firstStrip with sinkFails := [118] } 118 = false := by
  exact ⟨rfl, rfl, rfl, rfl, rfl, rfl, rfl, rfl, rfl, rfl, rfl, rfl⟩
/-- EmitPixRefusesWhatHoldsNoValue: no attribute byte, an attribute byte without a pixel byte, and a step inside a
strip whose latches nothing has written, which runs. -/
theorem test_witness_emitPix_refuses :
    (runAt .pix 0).st = .run ∧ (runAt .pix 0).phase = .pix ∧ (runAt .pix 0).idx.toNat % 4 = 0 ∧
    6880 = 6144 + 32 * (191 / 8) + 0 ∧ 6112 = 2048 * (191 / 64) + 256 * (191 % 8) + 32 * (191 / 8 % 8) + 0 ∧
    (runAt .pix 0).src.lookup 6880 = none ∧
    Memory.lookup [(6880, 0xF7#8)] 6880 ≠ none ∧ Memory.lookup [(6880, 0xF7#8)] 6112 = none ∧
    (runAt .pix 24575).idx.toNat % 4 ≠ 0 ∧ (runAt .pix 24575).idx.toNat ≤ 24575 := by decide
theorem test_emitPix_unwritten_latches : (answer (step (runAt .pix 1))).map State.idx = some 2#15 := by rfl
/-- EmitPixRecordsItsFetch: at I = 0 and inside a strip. -/
theorem test_witness_fetch_record :
    (answer (exec .emitPix firstStrip)).map State.st = some .run ∧ firstStrip.idx.toNat % 4 = 0 ∧
    (answer (exec .emitPix (insideStrip 3))).map State.st = some .run ∧ (insideStrip 3).idx.toNat % 4 ≠ 0 :=
  ⟨rfl, rfl, rfl, by decide⟩
/-- ResetForgetsTheLatches: two states that differ in their latches and agree in the count. -/
theorem test_witness_reset_latches : (insideStrip 1).resets = { insideStrip 1 with attr := 0#8 }.resets := rfl
/-- EndRunSetsDone. -/
theorem test_witness_endRun : (runAt .fin 0).st = .run ∧ (runAt .fin 0).phase = .fin := ⟨rfl, rfl⟩
/-- SequencerStepsStopWhereNotSelected: IDLE, another phase, and the first IDX past each range. -/
theorem test_witness_not_selected :
    State.reset.st ≠ .run ∧ (runAt .hdr 0).phase ≠ .pal ∧ (runAt .hdr 54).idx.toNat = 54 ∧
    (runAt .pal 64).idx.toNat = 64 ∧ (runAt .pix 24576).idx.toNat = 24576 ∧ (runAt .pix 24576).st = .run ∧
    (runAt .pix 24576).phase = .pix := by decide
/-- SequencerAndStartFrame and ProgramCounterFollowsTheSequence: one step that emits, one refused by the sink, END, START
and NOP. -/
theorem test_witness_sequencer_answers :
    Instr.emitHdr.space = .phase ∧
    (answer (exec .emitHdr (runAt .hdr 53))).map State.st = some .run ∧
    (answer (exec .emitPal { runAt .pal 6 with sinkFails := [60] })).map State.st = some .fault ∧
    (answer (exec .emitPix firstStrip)).map State.st = some .run ∧
    (answer (exec .endRun (runAt .fin 0))).map State.st = some .done ∧
    (answer (exec (.start 6912) State.reset)).map State.st = some .run ∧
    (answer (exec .nop State.reset)).map State.st = some .idle := by
  refine ⟨rfl, rfl, rfl, rfl, rfl, rfl, rfl⟩
/-- StartByStateAndLength: IDLE with LEN 6912 and 6911, and a state that is not IDLE. -/
theorem test_witness_start : State.reset.st = .idle ∧ 6912 ≤ 6912 ∧ 6911 < 6912 ∧ (runAt .hdr 0).st ≠ .idle := by decide
/-- CommandWordSelectsTheOperation: each command word, in each phase and outside a run. -/
theorem test_witness_command :
    (withInputs [.command 3#2 0]).inputs = [.command 3#2 0] ∧
    (withInputs [.command 1#2 6912]).inputs = [.command 1#2 6912] ∧
    (withInputs [.command 0#2 0]).st ≠ .run ∧
    State.inputs { runAt .hdr 0 with inputs := [.command 0#2 0] } = [.command 0#2 0] ∧
    (runAt .hdr 0).phase = .hdr ∧ (runAt .pal 0).phase = .pal ∧ (runAt .pix 0).phase = .pix ∧
    (runAt .fin 0).phase = .fin ∧ (runAt .fin 0).st = .run := by decide
/-- StepRunsTheDecodedOperation: no input, a unit's word that decodes, one that does not, and a new sink. -/
theorem test_witness_step :
    State.reset.inputs = [] ∧ (withInputs [.unit .flip [100#8]]).inputs = [.unit .flip [100#8]] ∧
    decode (.wired .flip) [100#8] = .ok (.flip 100#8) ∧
    decode (.wired .flip) [192#8] = .error (.rowOutsideDomain 192#8) ∧
    step (withInputs [.prepareSink [5]]) = .next { State.reset with sinkFails := [5] } := ⟨rfl, rfl, rfl, rfl, rfl⟩
/-- TableWordIsTheNextOperation: a table word of a step, of a unit, of START and of NOP in a state that is not RUN. -/
theorem test_witness_table_word :
    decodeTableWord 8 2 = some .emitPix ∧ decodeTableWord 16 0x17FF = some (.translate 191#8 31#5) ∧
    decodeTableWord 32 0x02080FA5 = some (.pack 0xA5#8 15#4 8#4 2#2) ∧ State.reset.st ≠ .run :=
  ⟨rfl, rfl, rfl, by decide⟩
/-- HostWritesSrcOutsideARun at the last location, in a run, and at the first address past it. -/
theorem test_witness_host_write :
    (withInputs [.srcWrite 6911#13 7#8]).inputs = [.srcWrite 6911#13 7#8] ∧ State.reset.st ≠ .run ∧
    State.reset.src.wf = true ∧ (6911#13).toNat ≤ 6911 ∧ 6911 < (6912#13).toNat ∧ (runAt .hdr 0).st = .run := by decide
/-- MemReadReturnsTheLastWrite: at the last location, beside it, at an empty one, past the end. -/
theorem test_witness_memRead :
    Memory.wf [(6910, 1#8)] = true ∧ memRead (Memory.insert [(6910, 1#8)] 6911 7#8) 6911 = .next 7#8 ∧
    memRead (Memory.insert [(6910, 1#8)] 6911 7#8) 6910 = .next 1#8 ∧
    memRead [(6910, 1#8)] 6911 = .refused (.srcHoldsNoValue 6911) ∧ memRead [] 6912 = .fault (.noSuchAddress 6912) :=
  ⟨by decide, rfl, rfl, rfl, rfl⟩
/-- DecodeEncodeRoundTrip and DecoderGivesWellFormedOperations. -/
theorem test_witness_round_trip : (Instr.pack 0xA5#8 15#4 8#4 3#2).wellFormed = true ∧
    decode (.wired .pack) (encode (.pack 0xA5#8 15#4 8#4 3#2)) = .ok (.pack 0xA5#8 15#4 8#4 3#2) ∧
    decode .cmd (encode (.start 6912)) = .ok (.start 6912) := ⟨rfl, rfl, rfl⟩
/-- FaultEntryIsPrecise: a short START, and a step whose byte the sink refuses. -/
theorem test_witness_fault_entry :
    exec (.start 0) State.reset = .next { State.reset with st := .fault, cause := .inputLength } ∧
    State.reset.st ≠ .fault ∧
    exec .emitHdr { runAt .hdr 0 with sinkFails := [0] } =
      .next { runAt .hdr 0 with sinkFails := [0], st := .fault, cause := .writeError } := ⟨rfl, by decide, rfl⟩
/-- StoppedStatesAreLeftByResetOnly: a DONE state whose next command is START. -/
theorem test_witness_stopped :
    step { State.reset with st := .done, phase := .fin, inputs := [.command 1#2 6912] } =
      .next { State.reset with st := .done, phase := .fin } ∧
    (1#2 ≠ 2#2 ∧ 1#2 ≠ 3#2) := ⟨rfl, by decide⟩
/-- FaultIsLeftByResetOnly: a faulted state, and an operation that answers in it. -/
theorem test_witness_fault_kept :
    State.st { State.reset with st := .fault, cause := .writeError } = .fault ∧
    exec .nop { State.reset with st := .fault, cause := .writeError } =
      .next { State.reset with st := .fault, cause := .writeError } := ⟨rfl, rfl⟩
/-- LevelOutputsFollowTheRun: DONE rises at END, FAULT at a refused byte, and DONE falls at RESET. -/
theorem test_witness_levels :
    (runAt .fin 0).doneLevel = false ∧ (answer (step (runAt .fin 0))).map State.doneLevel = some true ∧
    (answer (step { runAt .hdr 0 with sinkFails := [0] })).map State.faultLevel = some true ∧
    (answer (step { withInputs [.command 2#2 0] with st := .done })).map State.doneLevel = some false :=
  ⟨rfl, rfl, rfl, rfl⟩
/-- SrcIsWrittenByTheHostOnly: SRC changes by a host write and by RESET. -/
theorem test_witness_src_changes :
    (answer (step (withInputs [.srcWrite 0#13 7#8]))).map State.src = some [(0, 7#8)] ∧ State.reset.src ≠ [(0, 7#8)] ∧
    (answer (step { withInputs [.command 2#2 0] with src := [(0, 7#8)] })).map State.src = some [] :=
  ⟨rfl, by decide, rfl⟩
/-- OutGrowsAtItsEndOrIsEmptied: the three cases. -/
theorem test_witness_out :
    (answer (step (runAt .fin 0))).map State.out = some [] ∧
    (answer (step { runAt .hdr 1 with out := [0x42#8] })).map State.out = some [0x42#8, 0x4D#8] ∧
    (answer (step { withInputs [.command 1#2 6912] with out := [9#8] })).map State.out = some [] := ⟨rfl, rfl, rfl⟩

/-- InvariantIsKeptByEveryStep: a run inside a strip meets the invariant and steps. -/
theorem test_witness_invariant : (insideStrip 1).Inv := by
  refine ⟨?_, ⟨?_, ?_⟩, fun _ => ?_, ⟨?_, ?_⟩, fun _ _ => rfl, fun _ _ _ => ?_, by decide⟩
  · show (1#15).toNat ≤ 24575
    decide
  · exact fun h => by cases h
  · exact fun _ => rfl
  · exact List.length_replicate
  · exact fun h => by cases h
  · exact fun h => by cases h
  · exact ⟨191#8, rfl, rfl, rfl⟩
/-- The same after a WriteError and a host write of the strip's pixel byte: the latches hold what was fetched. -/
theorem test_witness_invariant_in_fault :
    (raise .writeError { insideStrip 1 with src := [(6112, 0#8), (6880, 0xF7#8)] }).Inv := by
  refine ⟨?_, ⟨?_, ?_⟩, fun _ => ?_, ⟨?_, ?_⟩, fun _ _ => rfl, ?_, by decide⟩
  · show (1#15).toNat ≤ 24575
    decide
  · exact fun _ => .inr rfl
  · exact fun h => absurd rfl h
  · exact List.length_replicate
  · exact fun h => by cases h
  · exact fun h => by cases h
  · exact fun h => by cases h
theorem test_witness_invariant_steps : (answer (step (insideStrip 1))).map State.idx = some 2#15 := by rfl

/-- A run at the first index of a phase other than PIX, over a memory, with some bytes out. -/
def runOver (m : Memory) (p : Phase) (out : List Byte) : State := { runAt p 0 with src := m, out := out }

theorem runOver_inv {m : Memory} {p : Phase} {out : List Byte} (hm : m.wf = true) (hp : p ≠ .pix)
    (ho : out.length = (runOver m p out).pos) : (runOver m p out).Inv := by
  refine ⟨?_, ⟨?_, ?_⟩, fun _ => ho, ⟨?_, ?_⟩, fun h => absurd h hp, fun _ h => absurd h hp, hm⟩
  · cases p <;> simp [runOver, runAt, State.idxInRange]
  · exact fun h => by cases h
  · exact fun _ => rfl
  · exact fun h => by cases h
  · exact fun h => by cases h

/-- LoadedRunNeverStops: a run at its first byte and at its end, over a loaded SRC. -/
theorem test_witness_loaded_run :
    (runOver fullDump .hdr []).Inv ∧ (runOver fullDump .hdr []).st = .run ∧ (runOver fullDump .hdr []).inputs = [] ∧
    (runOver fullDump .hdr []).src.loaded ∧ (runOver fullDump .fin (List.replicate 24694 0#8)).Inv :=
  ⟨runOver_inv fullDump_wf (by decide) rfl, rfl, rfl, test_witness_loaded,
    runOver_inv fullDump_wf (by decide) List.length_replicate⟩

/-- IDLE over a memory, START to come, a sink that refuses the listed positions. -/
def startable (m : Memory) (fails : List Nat) : State :=
  { withInputs [.command 1#2 6912] with src := m, sinkFails := fails }

/-- RunFromStartGivesTheFile: IDLE, SRC loaded, START to come, a sink that accepts. -/
theorem test_witness_run :
    (startable fullDump []).st = .idle ∧ (startable fullDump []).inputs = [.command 1#2 6912] ∧
    (startable fullDump []).src.loaded ∧ (startable fullDump []).sinkAcceptsAll :=
  ⟨rfl, rfl, test_witness_loaded, fun _ _ => rfl⟩
/-- RunStopsAtTheFirstRefusedByte: the last position as the only refused one, and the first. -/
theorem test_witness_refused_byte :
    (startable fullDump [24693]).st = .idle ∧ (startable fullDump [24693]).inputs = [.command 1#2 6912] ∧
    (startable fullDump [24693]).src.loaded ∧
    (∀ n, n < 24693 → (startable fullDump [24693]).sinkAccepts n = true) ∧
    (startable fullDump [24693]).sinkAccepts 24693 = false ∧ (startable fullDump [0]).sinkAccepts 0 = false := by
  refine ⟨rfl, rfl, test_witness_loaded, fun m h => ?_, rfl, rfl⟩
  have : m ≠ 24693 := by omega
  simp [startable, State.sinkAccepts, this]
/-- TopRowIsTheLastFileRow: a marker byte in screen row 0, and a position on each side of the last file row. -/
theorem test_witness_top_row :
    (∀ a, 32 ≤ a → Memory.lookup [(0, 0xFF#8)] a = Memory.lookup [] a) ∧ 24565 < 24566 := by
  refine ⟨fun a h => ?_, by decide⟩
  have : a ≠ 0 := by omega
  simp [Memory.lookup, this]
/-- EachSrcByteShowsInItsOwnStrips: the first strip of screen row 0, positions on both sides of its bytes, and a position
outside the strips of its attribute byte. -/
theorem test_witness_one_byte :
    bitmapOff 0#8 0#5 = .next 0#13 ∧ attrAddr 0#8 0#5 = .next 6144#13 ∧
    (∀ x, x ≠ 0 → Memory.lookup [(0, 0xFF#8)] x = Memory.lookup [] x) ∧
    24565 < 118 + 128 * (191 - 0) + 4 * 0 ∧ 118 + 128 * (191 - 0) + 4 * 0 + 3 < 24570 ∧
    ∀ r, r / 8 = 0 / 8 → 118 < 118 + 128 * (191 - r) + 4 * 0 := by
  refine ⟨rfl, rfl, fun x h => ?_, by decide, by decide, fun r h => by omega⟩
  simp [Memory.lookup, h]
/-- FlashBitsDoNotShow: two dumps that differ in one flash bit. -/
theorem test_witness_flash :
    (∀ a, a < 6144 → Memory.lookup [(6144, 0xB8#8)] a = Memory.lookup [(6144, 0x38#8)] a) ∧
    (∀ a, 6144 ≤ a → a < 6912 → (Memory.lookup [(6144, 0xB8#8)] a).map (fun b => b &&& 0x7F#8) =
      (Memory.lookup [(6144, 0x38#8)] a).map (fun b => b &&& 0x7F#8)) := by
  refine ⟨fun a h => ?_, fun a _ _ => ?_⟩
  · have : a ≠ 6144 := by omega
    simp [Memory.lookup, this]
  · by_cases h : a = 6144 <;> simp [Memory.lookup, h]

end Sys2Proof.Tests
end

section
/-! PROOFS. The family 00_scope.md: the open palette levels of R6. -/

namespace Sys2Proof.Proofs

/-- How `Config` builds a level from its free parameter: one more than a value below 255 fits in a byte. -/
theorem toNat_ofNat_level (n : Fin 255) : (BitVec.ofNat 8 (n.val + 1)).toNat = n.val + 1 := by
  rw [BitVec.toNat_ofNat]
  exact Nat.mod_eq_of_lt (by omega)

theorem lvlN_toNat : Config.lvlN.toNat = Config.lvlNLessOne.val + 1 := toNat_ofNat_level _

theorem lvlB_toNat : Config.lvlB.toNat = Config.lvlBLessOne.val + 1 := toNat_ofNat_level _

/-- Settles O16: each level is a successor, whatever value its free parameter has (R6). -/
theorem paletteLevelsAreNotZero : Obligations.PaletteLevelsAreNotZero := by
  unfold Obligations.PaletteLevelsAreNotZero
  rw [lvlN_toNat, lvlB_toNat]
  exact ⟨Nat.succ_ne_zero _, Nat.succ_ne_zero _⟩

end Sys2Proof.Proofs
end

section
/-! PROOFS. The family 10_state.md: the views of R11, the sequence of R12, who writes SRC and OUT (R18, R19), and the
invariant of R23. -/

namespace Sys2Proof.Proofs

open Sys2Proof.Machine

/-! ### The views of (PHASE, IDX) in each phase (R11) -/

theorem pos_hdr {s : State} (h : s.phase = .hdr) : s.pos = s.idx.toNat := by simp [State.pos, h]
theorem pos_pal {s : State} (h : s.phase = .pal) : s.pos = 54 + s.idx.toNat := by simp [State.pos, h]
theorem pos_pix {s : State} (h : s.phase = .pix) : s.pos = 118 + s.idx.toNat := by simp [State.pos, h]
theorem pos_fin {s : State} (h : s.phase = .fin) : s.pos = 24694 := by simp [State.pos, h]

theorem idxInRange_hdr {s : State} (h : s.phase = .hdr) : s.idxInRange ↔ s.idx.toNat ≤ 53 := by
  simp [State.idxInRange, h]
theorem idxInRange_pal {s : State} (h : s.phase = .pal) : s.idxInRange ↔ s.idx.toNat ≤ 63 := by
  simp [State.idxInRange, h]
theorem idxInRange_pix {s : State} (h : s.phase = .pix) : s.idxInRange ↔ s.idx.toNat ≤ 24575 := by
  simp [State.idxInRange, h]
theorem idxInRange_fin {s : State} (h : s.phase = .fin) : s.idxInRange ↔ s.idx.toNat = 0 := by
  simp [State.idxInRange, h]

/-- The range depends on (PHASE, IDX) alone, as `pos_congr` says of POS. -/
theorem idxInRange_congr {s t : State} (hp : t.phase = s.phase) (hi : t.idx = s.idx) :
    t.idxInRange ↔ s.idxInRange := by
  simp [State.idxInRange, hp, hi]

theorem k_congr {s t : State} (hi : t.idx = s.idx) : t.k = s.k := by simp [State.k, hi]
theorem ax_congr {s t : State} (hi : t.idx = s.idx) : t.ax = s.ax := by simp [State.ax, hi]
theorem i_congr {s t : State} (hi : t.idx = s.idx) : t.i = s.i := by simp [State.i, hi]

/-- K, AX and I are the whole of IDX: 15 bits as 8, 5 and 2. -/
theorem idx_eq_fields (s : State) : s.idx = s.k ++ s.ax ++ s.i := by
  apply BitVec.eq_of_toNat_eq
  rw [toNat_append_add, toNat_append_add, k_toNat, ax_toNat, i_toNat]
  omega

/-- Settles O17: the fields as bits and as numbers, Y by `flipRow`, and POS phase by phase. -/
theorem viewsOfTheIndex : Obligations.ViewsOfTheIndex := by
  intro s
  exact ⟨idx_eq_fields s, rfl, rfl, fun _ h => ⟨_, flipRow_of_le (k_le h), y_toNat h⟩,
    pos_hdr, pos_pal, pos_pix, pos_fin⟩

/-! ### The advance along the sequence (R12) -/

/-- The emitting phases, each with its last index and the phase that comes after it (R12). -/
inductive Follows : Phase → Nat → Phase → Prop
  | hdr : Follows .hdr 53 .pal
  | pal : Follows .pal 63 .pix
  | pix : Follows .pix 24575 .fin

theorem Follows.last_le {p q : Phase} {last : Nat} (h : Follows p last q) : last ≤ 24575 := by
  cases h <;> decide

theorem idx_succ_toNat {x : BitVec 15} (h : x.toNat < 24575) : (x + 1#15).toNat = x.toNat + 1 := by
  rw [BitVec.toNat_add]
  exact Nat.mod_eq_of_lt (by simp only [BitVec.toNat_ofNat]; omega)

/-- One advance is one position on in the sequence of all phases, and stays in it (R11, R12). -/
theorem advance_follows {s : State} {last : Nat} {q : Phase} (hf : Follows s.phase last q)
    (hi : s.idx.toNat ≤ last) : (advance last q s).pos = s.pos + 1 ∧ (advance last q s).idxInRange := by
  have hlast := hf.last_le
  by_cases h : s.idx.toNat = last
  · rw [advance_last h]
    generalize hp : s.phase = p at hf
    cases hf
    · rw [pos_hdr hp, h, pos_pal rfl, idxInRange_pal rfl]; simp
    · rw [pos_pal hp, h, pos_pix rfl, idxInRange_pix rfl]; simp
    · rw [pos_pix hp, h, pos_fin rfl, idxInRange_fin rfl]; simp
  · rw [advance_within h]
    have hsucc := idx_succ_toNat (x := s.idx) (by omega)
    generalize hp : s.phase = p at hf
    cases hf
    · rw [pos_hdr hp, pos_hdr rfl, idxInRange_hdr rfl, hsucc]; omega
    · rw [pos_pal hp, pos_pal rfl, idxInRange_pal rfl, hsucc]; omega
    · rw [pos_pix hp, pos_pix rfl, idxInRange_pix rfl, hsucc]; omega

/-- An advance that ends inside a strip has not changed the phase: a phase begins at I = 0 (R12). -/
theorem advance_inside_strip {s : State} {last : Nat} {q : Phase} (h : (advance last q s).i ≠ 0#2) :
    s.idx.toNat ≠ last ∧ advance last q s = { s with idx := s.idx + 1#15 } := by
  have hl : s.idx.toNat ≠ last := by
    intro hl
    rw [advance_last hl] at h
    exact h rfl
  exact ⟨hl, advance_within hl⟩

/-! ### What an emitting step does (R37, R101, R115, R116) -/

/-- If `t` is inside a strip, `s` stood in the same strip, `t` has latched the bytes `s` used, and the record of the
fetch is a new one exactly when `s` stood at I = 0 (R101, R102; log 26). -/
def StripCarried (s t : State) : Prop :=
  t.phase = .pix → t.i ≠ 0#2 → s.phase = .pix ∧ t.k = s.k ∧ t.ax = s.ax ∧
    stripBytes s = .next (t.attr, t.pix) ∧
    t.fetched = if s.i = 0#2 then some ⟨s.k, s.ax, t.attr, t.pix⟩ else s.fetched

/-- What an emitting step does when the sink accepts its byte; `exec_phase_cases` says that it does. -/
structure Emitted (s t : State) : Prop where
  st : t.st = .run
  cause : t.cause = s.cause
  src : t.src = s.src
  out : ∃ b, t.out = s.out ++ [b]
  pos : t.pos = s.pos + 1
  inRange : t.idxInRange
  strip : StripCarried s t

/-- The two outcomes of an emitting step, for any step that hands its byte to `emit`. -/
theorem emit_emitted {b : Byte} {commit : State → State} {s : State}
    (h : Emitted s (commit { s with out := s.out ++ [b] })) :
    Emitted s (emit b commit s) ∨ emit b commit s = raise .writeError s := by
  rcases emit_cases (t := emit b commit s) rfl with ⟨-, e⟩ | ⟨-, e⟩
  · exact .inl (e ▸ h)
  · exact .inr e

/-- Outside phase PIX a step that only appends and advances emits, and ends in no strip (R115, R116). -/
theorem advance_emitted {s : State} {last : Nat} {q : Phase} {b : Byte} (hs : s.st = .run) (hp : s.phase ≠ .pix)
    (hf : Follows s.phase last q) (hi : s.idx.toNat ≤ last) :
    Emitted s (advance last q { s with out := s.out ++ [b] }) := by
  obtain ⟨hpos, hrange⟩ := advance_follows (s := { s with out := s.out ++ [b] }) hf hi
  refine ⟨by simp [hs], by simp, by simp, ⟨b, by simp⟩, hpos, hrange, fun hpix hne => ?_⟩
  rw [(advance_inside_strip hne).2] at hpix
  exact absurd hpix hp

theorem execEmitHdr_emitted {s t : State} (h : execEmitHdr s = .next t) :
    s.st = .run ∧ (Emitted s t ∨ t = raise .writeError s) := by
  obtain ⟨hs, hp, hi, b, -, rfl⟩ := execEmitHdr_cases h
  exact ⟨hs, emit_emitted (advance_emitted hs (by simp [hp]) (hp ▸ .hdr) hi)⟩

theorem execEmitPal_emitted {s t : State} (h : execEmitPal s = .next t) :
    s.st = .run ∧ (Emitted s t ∨ t = raise .writeError s) := by
  obtain ⟨hs, hp, hi, b, -, rfl⟩ := execEmitPal_cases h
  exact ⟨hs, emit_emitted (advance_emitted hs (by simp [hp]) (hp ▸ .pal) hi)⟩

/-- A strip's two bytes: at I = 0 what SRC holds at its two addresses, inside the strip the latches (R101). -/
theorem stripBytes_eq_next {s : State} {a p : Byte} : stripBytes s = .next (a, p) ↔
    if s.i = 0#2 then
      ∃ y, flipRow s.k = .next y ∧ fetchAttr s.src y s.ax = .next a ∧ fetchPix s.src y s.ax = .next p
    else s.attr = a ∧ s.pix = p := by
  unfold stripBytes
  split <;> simp [andThen_eq_next]

theorem latchStrip_fetched (a p : Byte) (s : State) :
    (latchStrip a p s).fetched = if s.i = 0#2 then some ⟨s.k, s.ax, a, p⟩ else s.fetched := by
  unfold latchStrip; split <;> rfl

/-- After the latching of a strip's bytes the latches hold them, also where nothing is latched (R101). -/
theorem latchStrip_latches {s : State} {a p : Byte} (h : stripBytes s = .next (a, p)) :
    (latchStrip a p s).attr = a ∧ (latchStrip a p s).pix = p := by
  by_cases h0 : s.i = 0#2
  · rw [latchStrip_fetch h0]; exact ⟨rfl, rfl⟩
  · rw [latchStrip_inside h0]
    simpa [h0] using stripBytes_eq_next.1 h

/-- An index that does not reach the next strip keeps K and AX. -/
theorem strip_of_idx_succ {s t : State} (ht : t.idx.toNat = s.idx.toNat + 1) (hne : t.i ≠ 0#2) :
    t.k = s.k ∧ t.ax = s.ax := by
  rw [Ne, i_eq_zero_iff] at hne
  refine ⟨BitVec.eq_of_toNat_eq ?_, BitVec.eq_of_toNat_eq ?_⟩
  · rw [k_toNat, k_toNat]; omega
  · rw [ax_toNat, ax_toNat]; omega

theorem advance_stripCarried {s u : State} {a p : Byte} {o : List Byte} (hp : s.phase = .pix)
    (hi : s.idx.toNat ≤ 24575) (hb : stripBytes s = .next (a, p)) (hu : u = latchStrip a p { s with out := o }) :
    StripCarried s (advance 24575 .fin u) := by
  have hidx : u.idx = s.idx := by simp [hu]
  obtain ⟨ha, hpx⟩ : u.attr = a ∧ u.pix = p := hu ▸ latchStrip_latches (s := { s with out := o }) hb
  have hfet : u.fetched = if s.i = 0#2 then some ⟨s.k, s.ax, a, p⟩ else s.fetched := hu ▸ latchStrip_fetched _ _ _
  intro _ hne
  obtain ⟨hl, hadv⟩ := advance_inside_strip hne
  have hsucc : (advance 24575 .fin u).idx.toNat = s.idx.toNat + 1 := by
    rw [hadv, hidx]
    exact idx_succ_toNat (by rw [hidx] at hl; omega)
  obtain ⟨hk, hax⟩ := strip_of_idx_succ hsucc hne
  rw [advance_attr, advance_pix, advance_fetched, ha, hpx]
  exact ⟨hp, hk, hax, hb, hfet⟩

theorem execEmitPix_emitted {s t : State} (h : execEmitPix s = .next t) :
    s.st = .run ∧ (Emitted s t ∨ t = raise .writeError s) := by
  obtain ⟨hs, hp, hi, a, p, hb, rfl⟩ := execEmitPix_cases h
  refine ⟨hs, emit_emitted ?_⟩
  generalize hu : latchStrip a p { s with out := s.out ++ [pixelByte a p s.i] } = u
  have hphase : u.phase = s.phase := by simp [← hu]
  have hidx : u.idx = s.idx := by simp [← hu]
  obtain ⟨hpos, hrange⟩ := advance_follows (s := u) (by rw [hphase, hp]; exact .pix) (by rw [hidx]; exact hi)
  rw [pos_congr hphase hidx] at hpos
  exact ⟨by simp [← hu, hs], by simp [← hu], by simp [← hu], ⟨pixelByte a p s.i, by simp [← hu]⟩, hpos, hrange,
    advance_stripCarried hp hi hb hu.symm⟩

/-- What a sequencer step can do: emit a byte, be refused by the sink, or end the run (R62). -/
theorem exec_phase_cases {i : Instr} {s t : State} (hi : i.space = .phase) (h : exec i s = .next t) :
    s.st = .run ∧ (Emitted s t ∨ t = raise .writeError s ∨ (s.phase = .fin ∧ t = { s with st := .done })) := by
  cases i <;> cases hi
  case emitHdr => exact (execEmitHdr_emitted h).imp_right (Or.imp_right .inl)
  case emitPal => exact (execEmitPal_emitted h).imp_right (Or.imp_right .inl)
  case emitPix => exact (execEmitPix_emitted h).imp_right (Or.imp_right .inl)
  case endRun =>
    obtain ⟨hs, hp, ht⟩ := execEndRun_cases h
    exact ⟨hs, .inr (.inr ⟨hp, ht⟩)⟩

/-- Settles O26: after an accepted byte alone ST is still RUN, and the other outcomes leave (PHASE, IDX) and OUT. -/
theorem programCounterFollowsTheSequence : Obligations.ProgramCounterFollowsTheSequence := by
  intro i s t hi h
  obtain ⟨-, he | rfl | ⟨-, rfl⟩⟩ := exec_phase_cases hi h
  · exact ⟨fun _ => ⟨he.pos, he.inRange, he.out⟩, fun hne => absurd he.st hne⟩
  · exact ⟨fun hr => (nomatch hr), fun _ => ⟨rfl, rfl, rfl⟩⟩
  · exact ⟨fun hr => (nomatch hr), fun _ => ⟨rfl, rfl, rfl⟩⟩

/-! ### What a step does to the state it is given, by the kind of operation -/

/-- What an operation can do, by the space its word is presented in. -/
theorem exec_space_cases {i : Instr} {s t : State} (h : exec i s = .next t) :
    (∃ o, t = showUnit o s) ∨ i.space = .phase ∨ (∃ n, i = .start n ∧ execStart n s = .next t) ∨
      (∃ b, i = .reset b ∧ t = resetCore s) ∨ t = s := by
  rcases exec_cases h with
    ⟨_, o, -, e⟩ | ⟨rfl, -⟩ | ⟨rfl, -⟩ | ⟨rfl, -⟩ | ⟨rfl, -⟩ | hstart | hreset | ⟨-, e⟩
  · exact .inl ⟨o, e⟩
  · exact .inr (.inl rfl)
  · exact .inr (.inl rfl)
  · exact .inr (.inl rfl)
  · exact .inr (.inl rfl)
  · exact .inr (.inr (.inl hstart))
  · exact .inr (.inr (.inr (.inl hreset)))
  · exact .inr (.inr (.inr (.inr e)))

/-- The codes select a sequencer step or the operation of the command word (R61, R62). -/
theorem selectOp_cases (c : BitVec 2) (len : Nat) (s : State) :
    (selectOp c len s).space = .phase ∨ selectOp c len s = decodeCmd c len := by
  by_cases h : c = 0#2 ∧ s.st = .run
  · obtain ⟨rfl, hs⟩ := h
    rw [selectOp_run hs, decodePhase_code]
    exact .inl (by cases s.phase <;> rfl)
  · exact .inr (selectOp_command (not_and_or.1 h))

theorem decodeCmd_eq_start {c : BitVec 2} {len n : Nat} (h : decodeCmd c len = .start n) : c = 1#2 ∧ len = n := by
  unfold decodeCmd at h
  split at h
  · cases h
  · split at h
    · next hc => injection h with h; exact ⟨hc, h⟩
    · cases h

theorem decodeCmd_eq_reset {c : BitVec 2} {len : Nat} {b : BitVec 1} (h : decodeCmd c len = .reset b) :
    c = 2#2 ∨ c = 3#2 := by
  unfold decodeCmd at h
  split at h
  · cases h
  · split at h
    · cases h
    · next h0 h1 => clear h; revert c; decide

/-- A host command other than NOP is the operation of the command word that is sampled next (R61). -/
def SampledIfCommand (s : State) (i : Instr) : Prop :=
  i.space = .cmd → i = .nop ∨ ∃ c len rest, s.inputs = .command c len :: rest ∧ decodeCmd c len = i

/-- What a step can do, told by the operation it runs: `step_cases` with its three ways to an operation as one. -/
theorem step_exec_cases {s t : State} (h : step s = .next t) :
    (∃ i rest, SampledIfCommand s i ∧ exec i { s with inputs := rest } = .next t) ∨
    (∃ a b rest, s.inputs = .srcWrite a b :: rest ∧ s.st ≠ .run ∧ a.toNat < 6912 ∧
      t = { s with inputs := rest, src := s.src.insert a.toNat b }) ∨
    (∃ fs rest, t = { s with inputs := rest, sinkFails := fs }) := by
  rcases step_cases h with
    ⟨hin, he⟩ | ⟨c, len, rest, hin, he⟩ | ⟨u, w, rest, i, hin, hd, he⟩ | hwrite | ⟨fs, rest, -, ht⟩
  · refine .inl ⟨_, s.inputs, fun hc => ?_, he⟩
    rcases selectOp_cases 0#2 0 s with hp | hp
    · rw [hp] at hc; cases hc
    · exact .inl hp
  · refine .inl ⟨_, rest, fun hc => ?_, he⟩
    rcases selectOp_cases c len s with hp | hp
    · rw [hp] at hc; cases hc
    · exact .inr ⟨c, len, rest, hin, hp.symm⟩
  · refine .inl ⟨i, rest, fun hc => ?_, he⟩
    rw [decodeWired_space hd] at hc
    cases hc
  · exact .inr (.inl hwrite)
  · exact .inr (.inr ⟨fs, rest, ht⟩)

theorem sampled_start {s : State} {n : Nat} (h : SampledIfCommand s (.start n)) :
    ∃ rest, s.inputs = .command 1#2 n :: rest := by
  obtain h | ⟨c, len, rest, hin, hd⟩ := h rfl
  · cases h
  · obtain ⟨rfl, rfl⟩ := decodeCmd_eq_start hd
    exact ⟨rest, hin⟩

theorem sampled_reset {s : State} {b : BitVec 1} (h : SampledIfCommand s (.reset b)) :
    ∃ c n rest, s.inputs = .command c n :: rest ∧ (c = 2#2 ∨ c = 3#2) := by
  obtain h | ⟨c, len, rest, hin, hd⟩ := h rfl
  · cases h
  · exact ⟨c, len, rest, hin, decodeCmd_eq_reset hd⟩

/-! ### Who writes SRC and OUT (R18, R19) -/

/-- An operation that is not RESET leaves SRC as it was (R18). -/
theorem exec_src {i : Instr} {s t : State} (h : exec i s = .next t) :
    t.src = s.src ∨ ∃ b, i = .reset b ∧ t.src = [] := by
  rcases exec_space_cases h with ⟨o, rfl⟩ | hp | ⟨n, -, he⟩ | ⟨b, rfl, rfl⟩ | rfl
  · exact .inl rfl
  · obtain ⟨-, he | rfl | ⟨-, rfl⟩⟩ := exec_phase_cases hp h
    · exact .inl he.src
    · exact .inl rfl
    · exact .inl rfl
  · rcases execStart_cases he with ⟨-, rfl⟩ | ⟨-, -, rfl⟩ | ⟨-, -, rfl⟩ <;> exact .inl rfl
  · exact .inr ⟨b, rfl, rfl⟩
  · exact .inl rfl

/-- Settles O44: a step changes SRC by the write port or by an operation, and there by RESET alone, which is sampled. -/
theorem srcIsWrittenByTheHostOnly : Obligations.SrcIsWrittenByTheHostOnly := by
  intro s t h hne
  rcases step_exec_cases h with ⟨i, rest, hi, he⟩ | ⟨a, b, rest, hin, hs, ha, -⟩ | ⟨fs, rest, rfl⟩
  · rcases exec_src he with hsrc | ⟨b, rfl, hnil⟩
    · exact absurd hsrc hne
    · obtain ⟨c, n, rest, hin, hc⟩ := sampled_reset hi
      exact .inr ⟨c, n, rest, hin, hc, hnil⟩
  · exact .inl ⟨a, b, rest, hin, hs, by omega⟩
  · exact absurd rfl hne

/-- An operation leaves OUT, appends a byte in a run, or empties it as an accepted START (R19, R126). -/
theorem exec_out {i : Instr} {s t : State} (h : exec i s = .next t) :
    t.out = s.out ∨ (s.st = .run ∧ ∃ b, t.out = s.out ++ [b]) ∨
      ∃ n, i = .start n ∧ 6912 ≤ n ∧ s.st = .idle ∧ t = beginRun s := by
  rcases exec_space_cases h with ⟨o, rfl⟩ | hp | ⟨n, hn, he⟩ | ⟨b, -, rfl⟩ | rfl
  · exact .inl rfl
  · obtain ⟨hs, he | rfl | ⟨-, rfl⟩⟩ := exec_phase_cases hp h
    · exact .inr (.inl ⟨hs, he.out⟩)
    · exact .inl rfl
    · exact .inl rfl
  · rcases execStart_cases he with ⟨-, rfl⟩ | ⟨-, -, rfl⟩ | ⟨hs, hlen, ht⟩
    · exact .inl rfl
    · exact .inl rfl
    · exact .inr (.inr ⟨n, hn, hlen, hs, ht⟩)
  · exact .inl rfl
  · exact .inl rfl

/-- Settles O45: only an operation changes OUT, and START, where it empties OUT, is the command sampled. -/
theorem outGrowsAtItsEndOrIsEmptied : Obligations.OutGrowsAtItsEndOrIsEmptied := by
  intro s t h
  rcases step_exec_cases h with ⟨i, rest, hi, he⟩ | ⟨a, b, rest, -, -, -, rfl⟩ | ⟨fs, rest, rfl⟩
  · rcases exec_out he with hout | ⟨hs, hb⟩ | ⟨n, rfl, hlen, hs, rfl⟩
    · exact .inl hout
    · exact .inr (.inl ⟨hs, hb⟩)
    · obtain ⟨rest', hin⟩ := sampled_start hi
      exact .inr (.inr ⟨hs, rfl, rfl, n, rest', hin, hlen⟩)
  · exact .inl rfl
  · exact .inl rfl

/-! ### The invariant (R23) -/

/-- The invariant holds at (HDR, 0) without a cause, in IDLE and at the beginning of a run. -/
theorem inv_at_origin {s : State} (hp : s.phase = .hdr) (hi : s.idx = 0#15) (hc : s.cause = .none)
    (hst : s.st = .idle ∨ (s.st = .run ∧ s.out = [])) (hm : s.src.wf = true) : s.Inv where
  idxRange := by rw [idxInRange_hdr hp, hi]; decide
  cause := by
    refine ⟨fun h => ?_, fun _ => hc⟩
    rcases hst with hs | ⟨hs, -⟩ <;> rw [hs] at h <;> cases h
  counted := by
    intro h
    rcases hst with hs | ⟨-, ho⟩
    · rw [hs, hc] at h; simp at h
    · rw [pos_hdr hp, hi, ho]; rfl
  endpoints := by
    refine ⟨fun _ => ⟨hp, hi⟩, fun h => ?_⟩
    rcases hst with hs | ⟨hs, -⟩ <;> rw [hs] at h <;> cases h
  latches := by intro h; rw [hp] at h; cases h
  strip := by intro _ h; rw [hp] at h; cases h
  memory := hm

/-- Settles O46: the reset state is written out in the model. -/
theorem powerOnStateOfTheSpec : Obligations.PowerOnStateOfTheSpec :=
  ⟨rfl, rfl, rfl, rfl, rfl, fun _ => rfl⟩

/-- Settles O47: power-on is IDLE at (HDR, 0). -/
theorem invariantAtReset : Obligations.InvariantAtReset :=
  inv_at_origin rfl rfl rfl (.inl rfl) wf_nil

/-- Two states that agree in all the invariant speaks of, but for SRC. -/
structure SameButSrc (s t : State) : Prop where
  st : t.st = s.st
  phase : t.phase = s.phase
  idx : t.idx = s.idx
  cause : t.cause = s.cause
  attr : t.attr = s.attr
  pix : t.pix = s.pix
  out : t.out = s.out
  fetched : t.fetched = s.fetched

/-- The invariant reads nothing else, and reads SRC's bytes in a run only. -/
theorem inv_sameButSrc {s t : State} (h : s.Inv) (hst : SameButSrc s t) (hsrc : s.st = .run → t.src = s.src)
    (hm : t.src.wf = true) : t.Inv where
  idxRange := (idxInRange_congr hst.phase hst.idx).2 h.idxRange
  cause := by
    have := h.cause
    simpa only [State.causeAgrees, hst.st, hst.cause] using this
  counted := by
    have := h.counted
    simpa only [State.outCounted, hst.st, hst.cause, hst.out, pos_congr hst.phase hst.idx] using this
  endpoints := by
    have := h.endpoints
    simpa only [State.endpointsAgree, hst.st, hst.phase, hst.idx] using this
  latches := by
    intro hp hne
    rw [hst.fetched, k_congr hst.idx, ax_congr hst.idx, hst.attr, hst.pix]
    exact h.latches (hst.phase ▸ hp) (i_congr hst.idx ▸ hne)
  strip := by
    intro hr hp hne
    rw [hst.st] at hr
    rw [k_congr hst.idx, ax_congr hst.idx, hst.attr, hst.pix, hsrc hr]
    exact h.strip hr (hst.phase ▸ hp) (i_congr hst.idx ▸ hne)
  memory := hm

/-- What the surroundings will do and what a unit shows do not enter the invariant. -/
theorem inv_surroundings {s : State} (h : s.Inv) (ins : List HostInput) (fs : List Nat) (o : Option UnitOut) :
    State.Inv { s with inputs := ins, sinkFails := fs, unitOut := o } :=
  inv_sameButSrc h ⟨rfl, rfl, rfl, rfl, rfl, rfl, rfl, rfl⟩ (fun _ => rfl) h.memory

/-- A host write of a location of SRC outside a run keeps the invariant (R125, R158). -/
theorem inv_srcWrite {s : State} {a : Nat} {b : Byte} (h : s.Inv) (hs : s.st ≠ .run) (ha : a < 6912)
    (ins : List HostInput) : State.Inv { s with inputs := ins, src := s.src.insert a b } :=
  inv_sameButSrc h ⟨rfl, rfl, rfl, rfl, rfl, rfl, rfl, rfl⟩ (fun hr => absurd hr hs) (insert_wf h.memory ha)

/-- Fault entry keeps the invariant: InputLength counts no bytes, and WriteError is raised in a run (R136, R139). -/
theorem inv_raise {s : State} {c : Cause} (h : s.Inv) (hc : c = .inputLength ∨ (c = .writeError ∧ s.st = .run)) :
    (raise c s).Inv where
  idxRange := h.idxRange
  cause := ⟨fun _ => hc.imp_right And.left, fun hne => absurd rfl hne⟩
  counted := by
    intro hw
    rcases hc with rfl | ⟨rfl, hr⟩
    · simp at hw
    · exact h.counted (.inl hr)
  endpoints := by constructor <;> intro he <;> cases he
  latches := h.latches
  strip := by intro hr; cases hr
  memory := h.memory

/-- END keeps the invariant: DONE stands where the run ended (R117). -/
theorem inv_done {s : State} (h : s.Inv) (hs : s.st = .run) (hp : s.phase = .fin) :
    State.Inv { s with st := .done } where
  idxRange := h.idxRange
  cause := ⟨fun hf => (nomatch hf), fun _ => h.cause.2 (by simp [hs])⟩
  counted := fun _ => h.counted (.inl hs)
  endpoints := ⟨fun hi => (nomatch hi), fun _ => hp⟩
  latches := h.latches
  strip := by intro hr; cases hr
  memory := h.memory

/-- The latches hold the strip after an accepted byte: they were loaded at I = 0, or stood before (R101, R102). -/
theorem emitted_latches {s t : State} (h : s.Inv) (he : Emitted s t) : t.latchesHoldStrip := by
  intro hp hne
  obtain ⟨hsp, hk, hax, hb, hf⟩ := he.strip hp hne
  rw [hk, hax, hf]
  by_cases h0 : s.i = 0#2
  · rw [if_pos h0]
  · rw [stripBytes_eq_next, if_neg h0] at hb
    rw [if_neg h0, ← hb.1, ← hb.2]
    exact h.latches hsp h0

/-- What was fetched stands in SRC after an accepted byte, since the step only reads SRC (R18, R38). -/
theorem emitted_strip {s t : State} (h : s.Inv) (hs : s.st = .run) (he : Emitted s t) : t.stripStandsInSrc := by
  intro _ hp hne
  obtain ⟨hsp, hk, hax, hb, -⟩ := he.strip hp hne
  rw [hk, hax, he.src]
  by_cases h0 : s.i = 0#2
  · rwa [stripBytes_eq_next, if_pos h0] at hb
  · rw [stripBytes_eq_next, if_neg h0] at hb
    rw [← hb.1, ← hb.2]
    exact h.strip hs hsp h0

/-- An accepted byte keeps the invariant. -/
theorem inv_emitted {s t : State} (h : s.Inv) (hs : s.st = .run) (he : Emitted s t) : t.Inv where
  idxRange := he.inRange
  cause := by
    have hcause : s.cause = .none := h.cause.2 (by simp [hs])
    exact ⟨fun hf => (by rw [he.st] at hf; cases hf), fun _ => he.cause.trans hcause⟩
  counted := by
    intro _
    obtain ⟨b, hb⟩ := he.out
    rw [hb, List.length_append, h.counted (.inl hs), he.pos]
    rfl
  endpoints := by constructor <;> intro hst <;> rw [he.st] at hst <;> cases hst
  latches := emitted_latches h he
  strip := emitted_strip h hs he
  memory := he.src ▸ h.memory

theorem inv_start {n : Nat} {s t : State} (h : s.Inv) (he : execStart n s = .next t) : t.Inv := by
  rcases execStart_cases he with ⟨-, rfl⟩ | ⟨-, -, rfl⟩ | ⟨-, -, rfl⟩
  · exact h
  · exact inv_raise h (.inl rfl)
  · exact inv_at_origin rfl rfl rfl (.inr ⟨rfl, rfl⟩) h.memory

/-- Every operation keeps the invariant, whether or not the codes select it. -/
theorem exec_inv {i : Instr} {s t : State} (h : s.Inv) (he : exec i s = .next t) : t.Inv := by
  rcases exec_space_cases he with ⟨o, rfl⟩ | hp | ⟨n, -, hstart⟩ | ⟨b, -, rfl⟩ | rfl
  · exact inv_surroundings h s.inputs s.sinkFails (some o)
  · obtain ⟨hs, hem | rfl | ⟨hfin, rfl⟩⟩ := exec_phase_cases hp he
    · exact inv_emitted h hs hem
    · exact inv_raise h (.inr ⟨rfl, hs⟩)
    · exact inv_done h hs hfin
  · exact inv_start h hstart
  · exact inv_at_origin rfl rfl rfl (.inl rfl) wf_nil
  · exact h

/-- Settles O48: every operation keeps the invariant, so does a host write outside a run, and taking an input or a sink
changes nothing the invariant speaks of. -/
theorem invariantIsKeptByEveryStep : Obligations.InvariantIsKeptByEveryStep := by
  intro s t h hstep
  rcases step_exec_cases hstep with ⟨i, rest, -, he⟩ | ⟨a, b, rest, -, hs, ha, rfl⟩ | ⟨fs, rest, rfl⟩
  · exact exec_inv (inv_surroundings h rest s.sinkFails s.unitOut) he
  · exact inv_srcWrite h hs ha rest
  · exact inv_surroundings h rest fs s.unitOut

end Sys2Proof.Proofs
end

section
/-! PROOFS. The family 20_memory.md: what MemRead answers (R36), what a strip's two reads can meet (R101), and the run
over a loaded SRC. -/

namespace Sys2Proof.Proofs

open Sys2Proof.Machine

/-! ### SRC as a map from addresses to bytes (R18, R36) -/

/-- The host's write, read back by `lookup`. The canonical form of the list is not needed: `insert` stops at the first
entry of its own address, and `lookup` reads no further. -/
theorem lookup_insert (m : Memory) (a : Nat) (b : Byte) (a' : Nat) :
    (m.insert a b).lookup a' = if a' = a then some b else m.lookup a' := by
  induction m with
  | nil => rfl
  | cons c m ih =>
    obtain ⟨k, v⟩ := c
    simp only [Memory.insert]
    split
    · rfl
    · split
      · next h =>
        subst h
        by_cases h' : a' = a <;> simp [Memory.lookup, h']
      · next hne =>
        simp only [Memory.lookup, ih]
        by_cases h' : a' = k
        · simp [h', Ne.symm hne]
        · simp [h']

theorem lookup_eq_none {m : Memory} {a : Nat} (h : ∀ x ∈ m, x.1 ≠ a) : m.lookup a = none := by
  induction m with
  | nil => rfl
  | cons c m ih =>
    obtain ⟨hc, hm⟩ := List.forall_mem_cons.1 h
    exact (if_neg hc.symm).trans (ih hm)

/-- MemRead sees of SRC only what the location holds. -/
theorem memRead_congr {m m' : Memory} {a : Nat} (h : m'.lookup a = m.lookup a) : memRead m' a = memRead m a := by
  simp only [memRead, h]

theorem memRead_past_end {m : Memory} {a : Nat} (h : 6911 < a) : memRead m a = .fault (.noSuchAddress a) :=
  if_neg (Nat.not_lt.2 h)

/-- Settles O35: `lookup_insert` at the written address and beside it, and MemRead's two stops. -/
theorem memReadReturnsTheLastWrite : Obligations.MemReadReturnsTheLastWrite := by
  intro m a b _
  refine ⟨fun ha => memRead_some (by omega) ?_, fun a' hne => memRead_congr ?_,
    fun ha hm => memRead_none (by omega) (lookup_eq_none hm), memRead_past_end⟩
  · rw [lookup_insert, if_pos rfl]
  · rw [lookup_insert, if_neg hne]

theorem memRead_of_loaded {m : Memory} {a : Nat} (hm : m.loaded) (ha : a < 6912) : ∃ b, memRead m a = .next b :=
  (Option.isSome_iff_exists.1 (hm a ha)).imp fun _ => memRead_some ha

/-! ### The reads of a strip (R101) -/

/-- At I = 0 a strip's two bytes are two reads of SRC, the one for ATTR first, at addresses in IDX alone (R72, R73). -/
theorem stripBytes_at_fetch {s : State} {y aAddr pAddr : Nat} (hi : s.idx.toNat ≤ 24575)
    (h0 : s.idx.toNat % 4 = 0) (hy : y = 191 - s.idx.toNat / 128)
    (ha : aAddr = 6144 + 32 * (y / 8) + s.idx.toNat / 4 % 32)
    (hp : pAddr = 2048 * (y / 64) + 256 * (y % 8) + 32 * (y / 8 % 8) + s.idx.toNat / 4 % 32) :
    stripBytes s =
      andThen (memRead s.src aAddr) fun a => andThen (memRead s.src pAddr) fun p => .next (a, p) := by
  have hrow : (191#8 - s.k).toNat = y := (y_toNat hi).trans hy.symm
  have hle : (191#8 - s.k).toNat ≤ 191 := by omega
  have hpAddr : 32 * (64 * (y / 64) + 8 * (y % 8) + y / 8 % 8) + s.idx.toNat / 4 % 32 = pAddr := by omega
  rw [stripBytes, if_pos ((i_eq_zero_iff s).2 h0), flipRow_of_le (k_le hi), andThen_next, fetchAttr_of_le hle,
    fetchPix_of_le hle, hrow, ax_toNat, ← ha, hpAddr]

/-- Inside a strip the two bytes are the latches, and SRC is not read (R101). -/
theorem stripBytes_inside {s : State} (h : s.idx.toNat % 4 ≠ 0) : stripBytes s = .next (s.attr, s.pix) :=
  if_neg fun h0 => h ((i_eq_zero_iff s).1 h0)

/-- Over a loaded SRC every strip of the picture has its two bytes: both reads of a fetch lie in SRC. -/
theorem stripBytes_of_loaded {s : State} (hl : s.src.loaded) (hi : s.idx.toNat ≤ 24575) :
    ∃ a p, stripBytes s = .next (a, p) := by
  by_cases h0 : s.idx.toNat % 4 = 0
  · generalize hy : 191 - s.idx.toNat / 128 = y
    obtain ⟨a, ha⟩ := memRead_of_loaded hl (a := 6144 + 32 * (y / 8) + s.idx.toNat / 4 % 32) (by omega)
    obtain ⟨p, hp⟩ := memRead_of_loaded hl
      (a := 2048 * (y / 64) + 256 * (y % 8) + 32 * (y / 8 % 8) + s.idx.toNat / 4 % 32) (by omega)
    refine ⟨a, p, ?_⟩
    rw [stripBytes_at_fetch hi h0 hy.symm rfl rfl, ha, andThen_next, hp, andThen_next]
  · exact ⟨s.attr, s.pix, stripBytes_inside h0⟩

/-! ### A selected emitting step answers, by what the sink answers (R37) -/

/-- The two ways an emitting step answers, each with the sink's own answer: one position on, or WriteError. -/
def SinkDecides (s t : State) : Prop :=
  (s.sinkAccepts s.pos = true ∧ t.st = .run ∧ t.pos = s.pos + 1) ∨
    (s.sinkAccepts s.pos = false ∧ t = { s with st := .fault, cause := .writeError })

/-- An operation that hands its byte to `emit` answers as the sink does, its commit keeping ST. Where the sink accepts,
the step that is still in RUN has moved on by one (`programCounterFollowsTheSequence`). -/
theorem emit_sinkDecides {i : Instr} {b : Byte} {commit : State → State} {s : State} (hi : i.space = .phase)
    (hs : s.st = .run) (hc : ∀ u, (commit u).st = u.st) (h : exec i s = .next (emit b commit s)) :
    ∃ t, exec i s = .next t ∧ SinkDecides s t := by
  refine ⟨_, h, ?_⟩
  cases hsink : s.sinkAccepts s.pos
  · exact .inr ⟨hsink, emit_refused hsink⟩
  · have hrun : (emit b commit s).st = .run := by rw [emit_accepted hsink, hc]; exact hs
    obtain ⟨hpos, -, -⟩ := (programCounterFollowsTheSequence i s _ hi h).1 hrun
    exact .inl ⟨hsink, hrun, hpos⟩

/-- The header's and the palette's steps differ in their phase and their ROM alone (R115, R116). -/
theorem rom_step_answers {i : Instr} {p q : Phase} {last : Nat} {rom : List Byte} {s : State}
    (hspace : i.space = .phase) (hs : s.st = .run) (hp : s.phase = p) (hi : s.idx.toNat ≤ last)
    (hlen : last < rom.length)
    (h : exec i s = inPhase p last s (andThen (romRead rom s.idx.toNat) fun b => .next (emit b (advance last q) s))) :
    ∃ t, exec i s = .next t ∧ SinkDecides s t := by
  rw [inPhase_selected hs hp hi, romRead_of_lt (by omega), andThen_next] at h
  exact emit_sinkDecides hspace hs (advance_st last q) h

theorem exec_emitHdr_answers {s : State} (hs : s.st = .run) (hp : s.phase = .hdr) (hi : s.idx.toNat ≤ 53) :
    ∃ t, exec .emitHdr s = .next t ∧ SinkDecides s t :=
  rom_step_answers rfl hs hp hi (by rw [hdrRom_length]; decide) rfl

theorem exec_emitPal_answers {s : State} (hs : s.st = .run) (hp : s.phase = .pal) (hi : s.idx.toNat ≤ 63) :
    ∃ t, exec .emitPal s = .next t ∧ SinkDecides s t :=
  rom_step_answers rfl hs hp hi (by rw [palRom_length]; decide) rfl

/-- A selected EMIT.PIX is its strip's two bytes and then `emit`: it stops exactly where they do (R101). -/
theorem exec_emitPix_selected {s : State} (hs : s.st = .run) (hp : s.phase = .pix) (hi : s.idx.toNat ≤ 24575) :
    exec .emitPix s = andThen (stripBytes s) fun ap =>
      .next (emit (pixelByte ap.1 ap.2 s.i) (fun t => advance 24575 .fin (latchStrip ap.1 ap.2 t)) s) :=
  inPhase_selected hs hp hi

theorem exec_emitPix_answers {s : State} {a p : Byte} (hs : s.st = .run) (hp : s.phase = .pix)
    (hi : s.idx.toNat ≤ 24575) (hb : stripBytes s = .next (a, p)) :
    ∃ t, exec .emitPix s = .next t ∧ SinkDecides s t := by
  have h := exec_emitPix_selected hs hp hi
  rw [hb, andThen_next] at h
  exact emit_sinkDecides rfl hs (fun u => by rw [advance_st, latchStrip_st]) h

/-- Settles O22: at I = 0 the first of the two reads that finds no value stops the step; inside a strip there is no
read. -/
theorem emitPixRefusesWhatHoldsNoValue : Obligations.EmitPixRefusesWhatHoldsNoValue := by
  intro s y aAddr pAddr hs hp hi hy ha hpa
  have hfetch := fun h0 => stripBytes_at_fetch hi h0 hy ha hpa
  refine ⟨fun h0 hnone => ?_, fun h0 hsome hnone => ?_, fun h0 => ?_⟩
  · rw [exec_emitPix_selected hs hp hi, hfetch h0, memRead_none (by omega) hnone, andThen_refused, andThen_refused]
  · obtain ⟨a, hattr⟩ := Option.ne_none_iff_exists'.1 hsome
    rw [exec_emitPix_selected hs hp hi, hfetch h0, memRead_some (by omega) hattr, andThen_next,
      memRead_none (by omega) hnone, andThen_refused, andThen_refused]
  · obtain ⟨t, ht, -⟩ := exec_emitPix_answers hs hp hi (stripBytes_inside h0)
    exact ⟨t, ht⟩

/-! ### The run over a loaded SRC -/

/-- With nothing left to sample, a run's step is the sequencer step of its phase (R61, R62). -/
theorem step_run_no_input {s : State} (hs : s.st = .run) (hin : s.inputs = []) :
    step s = exec (decodePhase s.phase.code) s := by
  rw [step_no_input hin, selectOp_run hs]

/-- In an emitting phase, over a loaded SRC and on an IDX in range, the step of the phase answers as the sink does. -/
theorem emitting_step_answers {s : State} (hs : s.st = .run) (hr : s.idxInRange) (hl : s.src.loaded)
    (hne : s.phase ≠ .fin) : ∃ t, exec (decodePhase s.phase.code) s = .next t ∧ SinkDecides s t := by
  rw [decodePhase_code]
  cases hp : s.phase with
  | hdr => exact exec_emitHdr_answers hs hp ((idxInRange_hdr hp).1 hr)
  | pal => exact exec_emitPal_answers hs hp ((idxInRange_pal hp).1 hr)
  | pix =>
    have hi := (idxInRange_pix hp).1 hr
    obtain ⟨a, p, hb⟩ := stripBytes_of_loaded hl hi
    exact exec_emitPix_answers hs hp hi hb
  | fin => exact absurd hp hne

/-- Settles O49: END closes the run, and any other phase has its byte, which the sink takes or refuses. -/
theorem loadedRunNeverStops : Obligations.LoadedRunNeverStops := by
  intro s hinv hs hin hl
  rw [step_run_no_input hs hin]
  by_cases hp : s.phase = .fin
  · rw [congrArg Phase.code hp]
    exact ⟨_, if_pos ⟨hs, hp⟩, .inl ⟨hp, rfl⟩⟩
  · obtain ⟨t, ht, ⟨hsink, hrun, hpos⟩ | ⟨hsink, rfl⟩⟩ := emitting_step_answers hs hinv.idxRange hl hp
    · exact ⟨t, ht, .inr (.inl ⟨hp, hsink, hrun, hpos⟩)⟩
    · exact ⟨_, ht, .inr (.inr ⟨hp, hsink, rfl⟩)⟩

end Sys2Proof.Proofs
end

section
/-! PROOFS. The family 30_encoding.md: the words and their decoder (R50 to R65), STATUS (R60), and what the codes and a
placed word select (R61, R62). -/

namespace Sys2Proof.Proofs

open Sys2Proof.Machine

/-! ### LEN as bytes (R125; log 10) -/

/-- n bytes are enough for n, since n / 256 is less than n. -/
theorem natOfBytes_bytesOfNatAux {fuel n : Nat} (h : n ≤ fuel) : natOfBytes (bytesOfNatAux fuel n) = n := by
  induction fuel generalizing n with
  | zero => exact (Nat.le_zero.1 h).symm
  | succ fuel ih =>
    unfold bytesOfNatAux
    split
    · next h0 => exact h0.symm
    · next h0 =>
      rw [natOfBytes, ih (by omega), BitVec.toNat_ofNat]
      omega

theorem natOfBytes_bytesOfNat (n : Nat) : natOfBytes (bytesOfNat n) = n := natOfBytes_bytesOfNatAux le_rfl

/-! ### The fields of a word in whole bytes (R52, R53) -/

/-- Zero bits above a field keep it below its own weight. -/
theorem zeros_append_toNat_lt {m n : Nat} (x : BitVec n) : (0#m ++ x).toNat < 2 ^ n := by
  simpa using x.isLt

theorem coordRow_coord (y : BitVec 8) (ax : BitVec 5) : coordRow (coordLo y ax) (coordHi y) = y := by
  apply BitVec.eq_of_toNat_eq
  simp only [coordRow, coordLo, coordHi, toNat_append_add, toNat_extract, BitVec.toNat_ofNat]
  omega

theorem coordCol_coordLo (y : BitVec 8) (ax : BitVec 5) : coordCol (coordLo y ax) = ax := by
  apply BitVec.eq_of_toNat_eq
  simp only [coordCol, coordLo, toNat_append_add, toNat_extract]
  omega

/-- An F-COORD word has thirteen bits (R53). -/
theorem coordHi_toNat_lt (y : BitVec 8) : (coordHi y).toNat < 32 := zeros_append_toNat_lt _

/-! ### The decoder by space (R61, R62, R64) -/

theorem withRow_of_ok {y : BitVec 8} {i : Instr} (h : rowOk y = true) : withRow y i = .ok i := if_pos h

theorem withRow_eq_ok {y : BitVec 8} {i j : Instr} : withRow y i = .ok j ↔ rowOk y = true ∧ i = j := by
  unfold withRow
  split <;> simp_all

theorem decode_cmd_of_lt {c : Byte} {len : List Byte} (h : c.toNat < 4) :
    decode .cmd (c :: len) = .ok (decodeCmd (c.setWidth 2) (natOfBytes len)) := if_pos h

/-- In the PHASE space the decoder reads one byte, which holds a 2-bit code. -/
theorem decode_phase_eq_ok {bs : List Byte} {i : Instr} (h : decode .phase bs = .ok i) :
    ∃ p, bs = [p] ∧ i = decodePhase (p.setWidth 2) := by
  rcases bs with _ | ⟨p, _ | ⟨q, bs⟩⟩
  · cases h
  · simp only [decode] at h
    split at h
    · injection h with h
      exact ⟨p, rfl, h.symm⟩
    · cases h
  · cases h

/-- In the CMD space the decoder reads a byte that holds the command word, and the bytes of LEN after it. -/
theorem decode_cmd_eq_ok {bs : List Byte} {i : Instr} (h : decode .cmd bs = .ok i) :
    ∃ c len, bs = c :: len ∧ i = decodeCmd (c.setWidth 2) (natOfBytes len) := by
  rcases bs with _ | ⟨c, len⟩
  · cases h
  · simp only [decode] at h
    split at h
    · injection h with h
      exact ⟨c, len, rfl, h.symm⟩
    · cases h

theorem decodePhase_wellFormed_space (p : BitVec 2) :
    (decodePhase p).wellFormed = true ∧ (decodePhase p).space = .phase := by
  unfold decodePhase
  repeat' split
  all_goals exact ⟨rfl, rfl⟩

theorem decodeCmd_wellFormed_space (c : BitVec 2) (len : Nat) :
    (decodeCmd c len).wellFormed = true ∧ (decodeCmd c len).space = .cmd := by
  unfold decodeCmd
  repeat' split
  all_goals exact ⟨rfl, rfl⟩

/-- On a unit's wires a row is accepted only inside its domain (R64). -/
theorem decodeWired_wellFormed {u : FnUnit} {bs : List Byte} {i : Instr} (h : decodeWired u bs = .ok i) :
    i.wellFormed = true := by
  unfold decodeWired at h
  split at h
  · obtain ⟨hy, rfl⟩ := withRow_eq_ok.1 h; exact hy
  · obtain ⟨hy, rfl⟩ := withRow_eq_ok.1 h; exact hy
  · split at h
    · obtain ⟨hy, rfl⟩ := withRow_eq_ok.1 h; exact hy
    · cases h
  · split at h
    · obtain ⟨hy, rfl⟩ := withRow_eq_ok.1 h; exact hy
    · cases h
  · injection h with h; subst h; rfl
  · split at h
    · injection h with h; subst h; rfl
    · cases h
  · cases h

/-- Settles O37: space by space, since only the units' wires carry rows. -/
theorem decoderGivesWellFormedOperations : Obligations.DecoderGivesWellFormedOperations := by
  intro sp bs i h
  cases sp with
  | wired u => exact ⟨decodeWired_wellFormed h, decodeWired_space h⟩
  | phase =>
    obtain ⟨p, -, rfl⟩ := decode_phase_eq_ok h
    exact decodePhase_wellFormed_space _
  | cmd =>
    obtain ⟨c, len, -, rfl⟩ := decode_cmd_eq_ok h
    exact decodeCmd_wellFormed_space _ _

/-! ### The encoder read back (R50 to R53, R61, R62) -/

theorem decode_encode_translate {y : BitVec 8} {ax : BitVec 5} (h : rowOk y = true) :
    decode (.wired .translate) (encode (.translate y ax)) = .ok (.translate y ax) := by
  simp only [decode, decodeWired, encode, coordRow_coord, coordCol_coordLo, coordHi_toNat_lt, if_true, withRow_of_ok h]

theorem decode_encode_attrOff {y : BitVec 8} {ax : BitVec 5} (h : rowOk y = true) :
    decode (.wired .attrOff) (encode (.attrOff y ax)) = .ok (.attrOff y ax) := by
  simp only [decode, decodeWired, encode, coordRow_coord, coordCol_coordLo, coordHi_toNat_lt, if_true, withRow_of_ok h]

/-- PACK's separate operands come back from a byte each (R52; log 10). -/
theorem decode_encode_pack (pix : Byte) (ink paper : Nib) (i : BitVec 2) :
    decode (.wired .pack) (encode (.pack pix ink paper i)) = .ok (.pack pix ink paper i) := by
  have hfit : (0#4 ++ ink).toNat < 16 ∧ (0#4 ++ paper).toNat < 16 ∧ (0#6 ++ i).toNat < 4 :=
    ⟨zeros_append_toNat_lt ink, zeros_append_toNat_lt paper, zeros_append_toNat_lt i⟩
  simp only [decode, decodeWired, encode, if_pos hfit, BitVec.setWidth_append_eq_right]

/-- LEN comes back from its bytes, whatever its size (R61, R125). -/
theorem decode_encode_start (len : Nat) : decode .cmd (encode (.start len)) = .ok (.start len) := by
  rw [encode, decode_cmd_of_lt (by decide), natOfBytes_bytesOfNat]
  rfl

/-- The command word 1s is RESET with its start bit (R61). -/
theorem decode_encode_reset (b : BitVec 1) : decode .cmd (encode (.reset b)) = .ok (.reset b) := by
  revert b
  decide

/-- Settles O36: each operation in its own space; a row is accepted because it is in its domain. -/
theorem decodeEncodeRoundTrip : Obligations.DecodeEncodeRoundTrip := by
  intro i h
  cases i with
  | flip k => exact withRow_of_ok h
  | interleave y => exact withRow_of_ok h
  | translate y ax => exact decode_encode_translate h
  | attrOff y ax => exact decode_encode_attrOff h
  | colorMap attr => rfl
  | pack pix ink paper i => exact decode_encode_pack pix ink paper i
  | emitHdr => rfl
  | emitPal => rfl
  | emitPix => rfl
  | endRun => rfl
  | start len => exact decode_encode_start len
  | reset b => exact decode_encode_reset b
  | nop => rfl

/-- Settles O38: the words of the model's own decoder tests. -/
theorem wordsOfTheSpecDecode : Obligations.WordsOfTheSpecDecode :=
  ⟨Tests.test_decode_flip, Tests.test_decode_translate, Tests.test_decode_attrOff,
    Tests.test_decode_refuses_row_192.2.2.1, Tests.test_decode_emitPix, Tests.test_decode_reset.2,
    Tests.test_decode_start⟩

/-! ### STATUS (R60) -/

/-- Three 2-bit codes side by side, read back from their places. -/
theorem extract_three_codes (a b c : BitVec 2) :
    (a ++ b ++ c).extractLsb' 0 2 = c ∧ (a ++ b ++ c).extractLsb' 2 2 = b ∧ (a ++ b ++ c).extractLsb' 4 2 = a := by
  refine ⟨BitVec.eq_of_toNat_eq ?_, BitVec.eq_of_toNat_eq ?_, BitVec.eq_of_toNat_eq ?_⟩
  all_goals
    rw [toNat_extract, toNat_append_add, toNat_append_add]
    omega

/-- Settles O39: the codes of R60 are those of the model, and STATUS puts them side by side. -/
theorem statusWordFields : Obligations.StatusWordFields := by
  intro s
  obtain ⟨hst, hphase, hcause⟩ := extract_three_codes s.cause.code s.phase.code s.st.code
  refine ⟨hst.trans ?_, hphase.trans ?_, hcause.trans ?_⟩
  · cases s.st <;> rfl
  · cases s.phase <;> rfl
  · cases s.cause <;> rfl

/-! ### What the codes and a placed word select (R61, R62, R128) -/

theorem decodeCmd_reset {c : BitVec 2} {len : Nat} (h : c = 3#2 ∨ c = 2#2) :
    decodeCmd c len = .reset (c.extractLsb' 0 1) := by
  rcases h with rfl | rfl <;> rfl

/-- RESET does not read its start bit (R61). -/
theorem exec_reset_start_bit (b b' : BitVec 1) (s : State) : exec (.reset b) s = exec (.reset b') s := rfl

/-- Settles O30: the arm of NOP. -/
theorem nopChangesNothing : Obligations.NopChangesNothing := fun _ => rfl

/-- With CMD = 00 sampled in a run, the step is the sequencer step of its phase (R61, R62). -/
theorem step_sampled_run {s : State} {len : Nat} {rest : List HostInput} {p : Phase}
    (hin : s.inputs = .command 0#2 len :: rest) (hs : s.st = .run) (hp : s.phase = p) :
    step s = exec (decodePhase p.code) { s with inputs := rest } := by
  rw [step_command hin, selectOp_run hs, hp]

/-- With CMD other than 00, or outside a run, the step is the host command (R61, R128). -/
theorem step_sampled_command {s : State} {c : BitVec 2} {len : Nat} {rest : List HostInput}
    (hin : s.inputs = .command c len :: rest) (h : c ≠ 0#2 ∨ s.st ≠ .run) :
    step s = exec (decodeCmd c len) { s with inputs := rest } := by
  rw [step_command hin, selectOp_command h]

/-- Settles O31: a command other than 00 is the host's, and 00 is the sequencer's in a run. -/
theorem commandWordSelectsTheOperation : Obligations.CommandWordSelectsTheOperation := by
  rintro s c len rest u hin rfl
  refine ⟨fun hc b => ?_, ?_, ?_, ?_, ?_, ?_, ?_⟩
  · rw [step_sampled_command hin (.inl (by rintro rfl; simp at hc)), decodeCmd_reset hc]
    exact exec_reset_start_bit _ b _
  · rintro rfl
    exact step_sampled_command hin (.inl (by decide))
  · rintro rfl hs
    exact step_sampled_command hin (.inr hs)
  all_goals
    rintro rfl hs hp
    exact step_sampled_run hin hs hp

/-- Settles O32: one lemma of the step for each kind of input. -/
theorem stepRunsTheDecodedOperation : Obligations.StepRunsTheDecodedOperation := by
  intro s
  refine ⟨step_no_input, fun _ _ _ => step_command, fun u word rest i hin hd => ?_, fun u word rest e hin hd => ?_,
    fun _ _ => step_prepareSink⟩
  · rw [step_unit hin, show decodeWired u word = .ok i from hd]
  · rw [step_unit hin, show decodeWired u word = .error e from hd]

/-! ### A table word as the next operation (log 2) -/

/-- A table word is an operation of the first space that takes it. -/
theorem decodeTableWord_eq_some {nbits w : Nat} {i : Instr} (h : decodeTableWord nbits w = some i) :
    ∃ sp, tableSpace nbits w = some sp ∧ decode sp (tableBytes nbits w) = .ok i := by
  unfold decodeTableWord at h
  split at h
  · next sp hsp =>
    refine ⟨sp, hsp, ?_⟩
    cases hd : decode sp (tableBytes nbits w) with
    | ok j => rw [hd] at h; injection h with h; rw [h]
    | error e => rw [hd] at h; cases h
  · cases h

theorem code_ofCode (p : BitVec 2) : (Phase.ofCode p).code = p := by
  revert p
  decide

theorem step_placeWord_wired {u : FnUnit} {bs : List Byte} {i : Instr} (h : decode (.wired u) bs = .ok i) (s : State) :
    step (placeWord (.wired u) bs s) = exec i s := by
  rw [step_unit (s := placeWord (.wired u) bs s) rfl, show decodeWired u bs = .ok i from h]
  rfl

/-- Only the command word 00 is subject to ST, and it decodes to NOP (R61, R62). -/
theorem step_placeWord_cmd {bs : List Byte} {i : Instr} {s : State} (h : decode .cmd bs = .ok i)
    (hnop : i = .nop → s.st ≠ .run) : step (placeWord .cmd bs s) = exec i s := by
  obtain ⟨c, len, rfl, rfl⟩ := decode_cmd_eq_ok h
  refine step_sampled_command rfl ?_
  by_cases hc : c.setWidth 2 = 0#2
  · exact .inr (hnop (by rw [hc]; rfl))
  · exact .inl hc

/-- A placed PHASE code is run in RUN, in its phase (R62). -/
theorem step_placeWord_phase {bs : List Byte} {i : Instr} (h : decode .phase bs = .ok i) (s : State) :
    ∃ p, step (placeWord .phase bs s) = exec i { s with st := .run, phase := p } := by
  obtain ⟨p, rfl, rfl⟩ := decode_phase_eq_ok h
  refine ⟨Phase.ofCode (p.setWidth 2), ?_⟩
  rw [step_sampled_run (s := placeWord .phase [p] s) (p := Phase.ofCode (p.setWidth 2)) rfl rfl rfl, code_ofCode]
  rfl

/-- Settles O33: a word goes where its space is read, and only a PHASE code needs a change of (ST, PHASE) there. -/
theorem tableWordIsTheNextOperation : Obligations.TableWordIsTheNextOperation := by
  intro s nbits w i hdec hnop
  obtain ⟨sp, hsp, hd⟩ := decodeTableWord_eq_some hdec
  have hplace : s.withFetchWord nbits w = placeWord sp (tableBytes nbits w) s := by
    simp only [State.withFetchWord, placeTableWord, hsp]
  obtain ⟨-, hspace⟩ := decoderGivesWellFormedOperations sp _ i hd
  rw [hplace, hspace]
  cases sp with
  | wired u =>
    exact ⟨s, step_placeWord_wired hd s, rfl, rfl, rfl, rfl, rfl, rfl, rfl, rfl, rfl, rfl, rfl, fun _ => rfl,
      fun h => (nomatch h)⟩
  | cmd =>
    exact ⟨s, step_placeWord_cmd hd hnop, rfl, rfl, rfl, rfl, rfl, rfl, rfl, rfl, rfl, rfl, rfl, fun _ => rfl,
      fun h => (nomatch h)⟩
  | phase =>
    obtain ⟨p, hstep⟩ := step_placeWord_phase hd s
    exact ⟨_, hstep, rfl, rfl, rfl, rfl, rfl, rfl, rfl, rfl, rfl, rfl, rfl, fun h => absurd rfl h, fun _ => rfl⟩

end Sys2Proof.Proofs
end

section
/-! PROOFS. The family 30_encoding.md: the operations of R62: the function units, and the stops of the
sequencer steps (R64). -/

namespace Sys2Proof.Proofs

open Sys2Proof.Machine

/-! ### The translator's operations (R70 to R73) -/

/-- Rows 192 to 255 are refused by name (R64). -/
theorem onRow_of_lt {α : Type} {y : BitVec 8} {v : α} (h : 191 < y.toNat) :
    onRow y v = .refused (.rowOutsideDomain y) := by
  simp [onRow, rowOk, h]

theorem interleave_of_le {y : BitVec 8} (h : y.toNat ≤ 191) : interleave y = .next (interleaveBits y) := onRow_of_le h

/-- AT is the wires of INTERLEAVE above the column (R72). -/
theorem bitmapOff_of_le {y : BitVec 8} (ax : BitVec 5) (h : y.toNat ≤ 191) :
    bitmapOff y ax = .next (((interleaveBits y).setWidth 13 <<< 5) ||| ax.setWidth 13) := by
  rw [bitmapOff, interleave_of_le h, andThen_next]

theorem attrOff_of_le {y : BitVec 8} (ax : BitVec 5) (h : y.toNat ≤ 191) :
    attrOff y ax = .next (((y &&& 0xF8#8).setWidth 10 <<< 2) + ax.setWidth 10) := onRow_of_le h

/-- Settles O7: on a row of the domain each function answers, and the operation shows its answer. -/
theorem translatorUnitsComplete : Obligations.TranslatorUnitsComplete := by
  intro s y ax hy
  refine ⟨191#8 - y, interleaveBits y, _, _, ?_, flip_toNat hy, ?_, interleaveBits_toNat y, ?_,
    bitmapOffset_toNat (interleaveBits y) ax, ?_, attrOffset_toNat y ax⟩
  · rw [exec, execFlip, flipRow_of_le hy]; rfl
  · rw [exec, execInterleave, interleave_of_le hy]; rfl
  · rw [exec, execTranslate, bitmapOff_of_le ax hy]; rfl
  · rw [exec, execAttrOff, attrOff_of_le ax hy]; rfl

/-- Settles O8: the refusal of the row is the operation's. -/
theorem translatorUnitsRefuseOtherRows : Obligations.TranslatorUnitsRefuseOtherRows := by
  intro s y ax hy
  refine ⟨?_, ?_, ?_, ?_⟩
  · rw [exec, execFlip, flipRow, onRow_of_lt hy]; rfl
  · rw [exec, execInterleave, interleave, onRow_of_lt hy]; rfl
  · rw [exec, execTranslate, bitmapOff, interleave, onRow_of_lt hy]; rfl
  · rw [exec, execAttrOff, attrOff, onRow_of_lt hy]; rfl

/-! ### The mapper's and the packer's operations (R80, R92) -/

/-- PAPER is the field attr[6:3] (R80). -/
theorem paperIndex_eq_field (attr : Byte) : paperIndex attr = attr.extractLsb' 3 4 := by
  rw [paperIndex, BitVec.setWidth_and, BitVec.setWidth_ushiftRight_eq_extractLsb]
  exact BitVec.and_allOnes

theorem paperIndex_toNat (attr : Byte) : (paperIndex attr).toNat = attr.toNat / 8 % 16 := by
  rw [paperIndex_eq_field, toNat_extract]
  omega

/-- INK is the bright bit attr[6] above the field attr[2:0] (R80). -/
theorem inkIndex_eq_fields (attr : Byte) : inkIndex attr = attr.extractLsb' 6 1 ++ attr.extractLsb' 0 3 := by
  revert attr
  decide

theorem inkIndex_toNat (attr : Byte) : (inkIndex attr).toNat = 8 * (attr.toNat / 64 % 2) + attr.toNat % 8 := by
  rw [inkIndex_eq_fields, toNat_append_add, toNat_extract, toNat_extract]
  omega

/-- Group i is the field pix[7-2i : 6-2i] (R90). -/
theorem group_eq_field (pix : Byte) (i : BitVec 2) : group pix i = pix.extractLsb' (6 - 2 * i.toNat) 2 := by
  rw [group, BitVec.setWidth_and, Nat.mul_sub, BitVec.setWidth_ushiftRight_eq_extractLsb]
  exact BitVec.and_allOnes

/-- PACK puts ink or paper by the two bits of group i, the left one high (R90 to R92). -/
theorem packByte_eq (pix : Byte) (ink paper : Nib) (i : BitVec 2) :
    packByte pix ink paper i = (if pix.getLsbD (7 - 2 * i.toNat) then ink else paper)
      ++ (if pix.getLsbD (6 - 2 * i.toNat) then ink else paper) := by
  have hi := i.isLt
  have hhigh : (group pix i).getLsbD 1 = pix.getLsbD (7 - 2 * i.toNat) := by
    rw [group_eq_field, BitVec.getLsbD_extractLsb', show 6 - 2 * i.toNat + 1 = 7 - 2 * i.toNat by omega]
    rfl
  have hlow : (group pix i).getLsbD 0 = pix.getLsbD (6 - 2 * i.toNat) := by
    rw [group_eq_field, BitVec.getLsbD_extractLsb']
    rfl
  rw [packByte, hhigh, hlow]
  rfl

/-- Settles O12: neither operation can stop. -/
theorem mapperAndPackerComplete : Obligations.MapperAndPackerComplete := by
  intro s attr pix ink paper i
  exact ⟨inkIndex attr, paperIndex attr, packByte pix ink paper i, rfl, inkIndex_toNat attr, paperIndex_toNat attr,
    rfl, packByte_eq pix ink paper i⟩

/-! ### No unit touches the block (R62) -/

/-- Settles O13: an operation of a unit that answers has shown a result, and the record of it is none of the parts. -/
theorem functionUnitsArePure : Obligations.FunctionUnitsArePure := by
  intro i u s t hi h
  obtain ⟨o, rfl⟩ := execUnit_cases hi h
  exact ⟨⟨rfl, rfl, rfl, rfl, rfl, rfl, rfl, rfl⟩, ⟨rfl, rfl⟩, rfl, rfl, fun _ => rfl⟩

/-! ### Steps that are not selected, or stand past their range (R62, R64; logs 12 and 14) -/

theorem inPhase_not_selected {p : Phase} {last : Nat} {s : State} {body : Result State}
    (h : s.st ≠ .run ∨ s.phase ≠ p) : inPhase p last s body = .refused .notSelected :=
  if_neg (not_and_or.2 h)

theorem inPhase_past_range {p : Phase} {last : Nat} {s : State} {body : Result State} (hs : s.st = .run)
    (hp : s.phase = p) (hi : last < s.idx.toNat) : inPhase p last s body = .refused .idxOutsidePhase := by
  rw [inPhase, if_pos ⟨hs, hp⟩, if_neg (Nat.not_le.2 hi)]

/-- Settles O24: the emitting steps by `inPhase`, END by its own test of (ST, PHASE). -/
theorem sequencerStepsStopWhereNotSelected : Obligations.SequencerStepsStopWhereNotSelected := by
  intro s
  refine ⟨?_, inPhase_past_range, inPhase_past_range, inPhase_past_range⟩
  rintro i p (⟨rfl, rfl⟩ | ⟨rfl, rfl⟩ | ⟨rfl, rfl⟩ | ⟨rfl, rfl⟩) h
  · exact inPhase_not_selected h
  · exact inPhase_not_selected h
  · exact inPhase_not_selected h
  · exact if_neg (not_and_or.2 h)

end Sys2Proof.Proofs
end

section
/-! PROOFS. The family 30_encoding.md: FILE, put together from the ROMs, ROW and STRIP (R67), against the closed form
of R103 and R118. -/

namespace Sys2Proof.Proofs

open Sys2Proof.Machine

/-! ### Bytes put one after another -/

/-- `x` answers `n` bytes, and `f` answers them one by one. -/
def Spells (x : Result (List Byte)) (n : Nat) (f : Nat → Result Byte) : Prop :=
  ∃ l, x = .next l ∧ l.length = n ∧ ∀ j, j < n → ∃ b, l[j]? = some b ∧ f j = .next b

theorem Spells.congr {x : Result (List Byte)} {n : Nat} {f g : Nat → Result Byte} (h : Spells x n f)
    (hg : ∀ j, j < n → g j = f j) : Spells x n g := by
  obtain ⟨l, hx, hl, hb⟩ := h
  exact ⟨l, hx, hl, fun j hj => by rw [hg j hj]; exact hb j hj⟩

/-- A ROM spells its own reads (R7, R20). -/
theorem spells_rom (rom : List Byte) : Spells (.next rom) rom.length (romRead rom) :=
  ⟨rom, rfl, rfl, fun _ h => ⟨_, List.getElem?_eq_getElem h, romRead_of_lt h⟩⟩

theorem spells_append {x y : Result (List Byte)} {m n : Nat} {f : Nat → Result Byte} (hx : Spells x m f)
    (hy : Spells y n fun j => f (m + j)) :
    Spells (andThen x fun l => andThen y fun l' => .next (l ++ l')) (m + n) f := by
  obtain ⟨l, rfl, rfl, hb⟩ := hx
  obtain ⟨l', rfl, rfl, hb'⟩ := hy
  refine ⟨l ++ l', rfl, List.length_append, fun j hj => ?_⟩
  rcases Nat.lt_or_ge j l.length with hlt | hle
  · rw [List.getElem?_append_left hlt]
    exact hb j hlt
  · obtain ⟨i, rfl⟩ := Nat.exists_eq_add_of_le hle
    rw [List.getElem?_append_right hle, Nat.add_sub_cancel_left]
    exact hb' i (by omega)

/-- Pieces of one width, spelt each at its own place, are spelt together. -/
theorem spells_joinAll {w : Nat} (xs : List (Result (List Byte))) {f : Nat → Result Byte}
    (h : ∀ k (hk : k < xs.length), Spells xs[k] w fun j => f (w * k + j)) :
    Spells (joinAll xs) (w * xs.length) f := by
  induction xs generalizing f with
  | nil => exact ⟨[], rfl, rfl, fun j hj => absurd hj (Nat.not_lt_zero j)⟩
  | cons x xs ih =>
    have hhead : Spells x w f := (h 0 (Nat.succ_pos _)).congr fun j _ => by simp
    have htail : Spells (joinAll xs) (w * xs.length) fun j => f (w + j) :=
      ih fun k hk => (h (k + 1) (Nat.succ_lt_succ hk)).congr fun j _ => by
        congr 1
        ring
    rw [List.length_cons, Nat.mul_succ, Nat.add_comm]
    exact spells_append hhead htail

/-- The same for pieces given by a formula. -/
theorem spells_joinAll_range {w n : Nat} {x : Nat → Result (List Byte)} {f : Nat → Result Byte}
    (h : ∀ k, k < n → Spells (x k) w fun j => f (w * k + j)) :
    Spells (joinAll ((List.range n).map x)) (w * n) f := by
  have := spells_joinAll (w := w) ((List.range n).map x) (f := f) fun k hk => by
    simpa using h k (by simpa using hk)
  simpa using this

/-! ### STRIP, ROW and FILE -/

theorem fileRow_toNat {k : Nat} (hk : k < 192) : (BitVec.ofNat 8 k).toNat = k :=
  Nat.mod_eq_of_lt (by omega)

theorem flipRow_fileRow {k : Nat} (hk : k < 192) : flipRow (BitVec.ofNat 8 k) = .next (191#8 - BitVec.ofNat 8 k) :=
  flipRow_of_le (by rw [fileRow_toNat hk]; omega)

/-- The position of pixel-data byte j of strip ax of file row k names that row, that strip and that group (R103). -/
theorem pixDataByte_at (src : Memory) {k ax j : Nat} (hk : k < 192) (hax : ax < 32) (hj : j < 4) :
    pixDataByte src (128 * k + (4 * ax + j)) =
      andThen (fetchAttr src (191#8 - BitVec.ofNat 8 k) (BitVec.ofNat 5 ax)) fun a =>
      andThen (fetchPix src (191#8 - BitVec.ofNat 8 k) (BitVec.ofNat 5 ax)) fun b =>
        .next (pixelByte a b (BitVec.ofNat 2 j)) := by
  have hrow : BitVec.ofNat 8 ((128 * k + (4 * ax + j)) >>> 7) = BitVec.ofNat 8 k := by
    rw [Nat.shiftRight_eq_div_pow]
    congr 1
    omega
  have hcol : BitVec.ofNat 5 ((128 * k + (4 * ax + j)) >>> 2) = BitVec.ofNat 5 ax := by
    apply BitVec.eq_of_toNat_eq
    rw [Nat.shiftRight_eq_div_pow, BitVec.toNat_ofNat, BitVec.toNat_ofNat]
    omega
  have hgroup : BitVec.ofNat 2 (128 * k + (4 * ax + j)) = BitVec.ofNat 2 j := by
    apply BitVec.eq_of_toNat_eq
    rw [BitVec.toNat_ofNat, BitVec.toNat_ofNat]
    omega
  rw [pixDataByte, hrow, hcol, hgroup, flipRow_fileRow hk, andThen_next]

theorem strip_getElem? (pix attr : Byte) {j : Nat} (hj : j < 4) :
    (strip pix attr)[j]? = some (pixelByte attr pix (BitVec.ofNat 2 j)) := by
  interval_cases j <;> rfl

/-- Both addresses of a strip lie in SRC (R72, R73), so over a loaded SRC both its bytes are read. -/
theorem fetch_of_loaded {src : Memory} (hl : src.loaded) {y : BitVec 8} (hy : y.toNat ≤ 191) (ax : BitVec 5) :
    ∃ a b, fetchAttr src y ax = .next a ∧ fetchPix src y ax = .next b := by
  have hax := ax.isLt
  rw [fetchAttr_of_le hy, fetchPix_of_le hy]
  obtain ⟨a, ha⟩ := memRead_of_loaded hl (a := 6144 + 32 * (y.toNat / 8) + ax.toNat) (by omega)
  obtain ⟨b, hb⟩ := memRead_of_loaded hl
    (a := 32 * (64 * (y.toNat / 64) + 8 * (y.toNat % 8) + y.toNat / 8 % 8) + ax.toNat) (by omega)
  exact ⟨a, b, ha, hb⟩

/-- STRIP spells the four bytes of its strip (R93, R103). -/
theorem spells_stripAt {src : Memory} (hl : src.loaded) {k ax : Nat} (hk : k < 192) (hax : ax < 32) :
    Spells (stripAt src (191#8 - BitVec.ofNat 8 k) (BitVec.ofNat 5 ax)) 4 fun j =>
      pixDataByte src (128 * k + (4 * ax + j)) := by
  obtain ⟨-, hrow⟩ := flipRow_eq_next.1 (flipRow_fileRow hk)
  obtain ⟨a, b, ha, hb⟩ := fetch_of_loaded hl (y := 191#8 - BitVec.ofNat 8 k) (by omega) (BitVec.ofNat 5 ax)
  have hstrip : stripAt src (191#8 - BitVec.ofNat 8 k) (BitVec.ofNat 5 ax) = .next (strip b a) := by
    rw [stripAt, ha, andThen_next, hb, andThen_next]
  refine ⟨strip b a, hstrip, rfl, fun j hj => ⟨_, strip_getElem? b a hj, ?_⟩⟩
  simp only [pixDataByte_at src hk hax hj, ha, hb, andThen_next]

/-- ROW k spells the 128 bytes of file row k (R67, R103). -/
theorem spells_rowBytes {src : Memory} (hl : src.loaded) {k : Nat} (hk : k < 192) :
    Spells (rowBytes src k) 128 fun j => pixDataByte src (128 * k + j) := by
  rw [rowBytes, flipRow_fileRow hk, andThen_next]
  exact spells_joinAll_range (w := 4) (n := 32) (f := fun j => pixDataByte src (128 * k + j))
    fun ax hax => spells_stripAt hl hk hax

theorem fileByte_hdr (src : Memory) {n : Nat} (h : n < 54) : fileByte src n = romRead hdrRom n := if_pos h

theorem fileByte_pal (src : Memory) {n : Nat} (h : n < 64) : fileByte src (54 + n) = romRead palRom n := by
  rw [fileByte, if_neg (by simp), if_pos (by simp; omega)]
  simp

theorem fileByte_pix (src : Memory) (n : Nat) : fileByte src (118 + n) = pixDataByte src n := by
  rw [fileByte, if_neg (by simp; omega), if_neg (by simp)]
  simp

/-- The two ROMs spell the first 118 bytes of the file (R119). -/
theorem spells_roms (src : Memory) : Spells (.next (hdrRom ++ palRom)) 118 (fileByte src) := by
  have hhdr : Spells (.next hdrRom) 54 (fileByte src) :=
    hdrRom_length ▸ (spells_rom hdrRom).congr fun j hj => fileByte_hdr src (hdrRom_length ▸ hj)
  have hpal : Spells (.next palRom) 64 fun j => fileByte src (54 + j) :=
    palRom_length ▸ (spells_rom palRom).congr fun j hj => fileByte_pal src (palRom_length ▸ hj)
  exact spells_append hhdr hpal

/-- Settles O54: STRIP spells a strip, ROW its strips, and FILE the ROMs and its rows. -/
theorem fileIsTheClosedForm : Obligations.FileIsTheClosedForm := by
  intro src hl
  have hrows : Spells (joinAll ((List.range 192).map (rowBytes src))) 24576 fun j => fileByte src (118 + j) :=
    (spells_joinAll_range fun k hk => spells_rowBytes hl hk).congr fun j _ => fileByte_pix src j
  exact spells_append (spells_roms src) hrows

end Sys2Proof.Proofs
end

section
/-! PROOFS. The family 40_address_translator.md: FLIP and INTERLEAVE as mirrors of the rows (R70, R71), the two
translations as fields and as numbers (R72, R73), and what follows from them (R74, R75). -/

namespace Sys2Proof.Proofs

open Sys2Proof.Machine

/-! ### FLIP (R70) -/

/-- Settles O1: FLIP of 191 - k is on a row again, and 191 - (191 - k) = k. -/
theorem flipIsTheRowMirror : Obligations.FlipIsTheRowMirror := by
  intro k
  refine ⟨fun hk => ?_, onRow_of_lt⟩
  have hy := flip_toNat hk
  refine ⟨191#8 - k, flipRow_of_le hk, hy, ?_, flipRow_eq_next.2 ?_⟩
  · rw [hy, BitVec.toNat_not]
    omega
  · omega

/-! ### INTERLEAVE (R71) -/

theorem interleave_eq_next {y m : BitVec 8} : interleave y = .next m ↔ y.toNat ≤ 191 ∧ interleaveBits y = m :=
  onRow_eq_next

/-- INTERLEAVE keeps the third of the screen a row lies in. -/
theorem interleaveBits_third (y : BitVec 8) : (interleaveBits y).toNat / 64 = y.toNat / 64 :=
  (swapped_fields _ _ (interleaveBits_toNat y)).1

theorem interleaveBits_le {y : BitVec 8} (h : y.toNat ≤ 191) : (interleaveBits y).toNat ≤ 191 := by
  have := interleaveBits_third y
  omega

/-- Swapping the two fields twice gives the row back. -/
theorem interleaveBits_interleaveBits (y : BitVec 8) : interleaveBits (interleaveBits y) = y := by
  obtain ⟨hthird, hlow, hmid⟩ := swapped_fields _ _ (interleaveBits_toNat y)
  apply BitVec.eq_of_toNat_eq
  rw [interleaveBits_toNat (interleaveBits y), hthird, hlow, hmid]
  exact (row_fields y.toNat).symm

theorem interleave_symm {y m : BitVec 8} (h : interleave y = .next m) : interleave m = .next y := by
  obtain ⟨hy, rfl⟩ := interleave_eq_next.1 h
  exact interleave_eq_next.2 ⟨interleaveBits_le hy, interleaveBits_interleaveBits y⟩

/-- The field form of INTERLEAVE is the masks and shifts of R71. -/
theorem interleaveBits_eq_masks (y : BitVec 8) :
    interleaveBits y = (y &&& 0xC0#8) ||| ((y &&& 0x07#8) <<< 3) ||| ((y >>> 3) &&& 0x07#8) := by
  revert y
  decide

theorem interleaveBits_eq_self_iff (y : BitVec 8) : interleaveBits y = y ↔ y.toNat % 8 = y.toNat / 8 % 8 := by
  rw [← BitVec.toNat_inj, interleaveBits_toNat]
  omega

/-- Settles O2: INTERLEAVE is its wires on a row, so each clause is a fact about the wires. -/
theorem interleaveSwapsTheRowFields : Obligations.InterleaveSwapsTheRowFields := by
  intro y
  refine ⟨fun hy => ?_, onRow_of_lt⟩
  have hm := interleave_of_le hy
  exact ⟨interleaveBits y, hm, interleaveBits_toNat y, interleaveBits_eq_masks y, interleaveBits_le hy,
    interleaveBits_third y, interleave_symm hm, interleaveBits_eq_self_iff y⟩

/-! ### AT (R72) -/

/-- AT is the line of the row above the column: its two fields are INTERLEAVE(y) and ax. -/
theorem bitmapOff_eq_next_append {y : BitVec 8} {ax : BitVec 5} {a : BitVec 13} :
    bitmapOff y ax = .next a ↔ ∃ m, interleave y = .next m ∧ a = m ++ ax := by
  have hwires : ∀ m : BitVec 8, (m.setWidth 13 <<< 5) ||| ax.setWidth 13 = m ++ ax := fun m =>
    BitVec.eq_of_toNat_eq (by rw [bitmapOffset_toNat, toNat_append_add]; omega)
  simp only [bitmapOff, andThen_eq_next, hwires, Host.Outcome.next.injEq, eq_comm (a := a)]

theorem bitmapOff_of_lt {y : BitVec 8} (ax : BitVec 5) (h : 191 < y.toNat) :
    bitmapOff y ax = .refused (.rowOutsideDomain y) := by
  rw [bitmapOff, interleave, onRow_of_lt h, andThen_refused]

/-- Settles O3: the fields by the wires, the number by `bitmapOff_eq_next`. -/
theorem translateGivesTheBitmapOffset : Obligations.TranslateGivesTheBitmapOffset := by
  intro y ax
  refine ⟨fun hy => ?_, bitmapOff_of_lt ax⟩
  have hfields : bitmapOff y ax = .next (interleaveBits y ++ ax) :=
    bitmapOff_eq_next_append.2 ⟨_, interleave_of_le hy, rfl⟩
  obtain ⟨-, hnum⟩ := bitmapOff_eq_next.1 hfields
  have hax := ax.isLt
  exact ⟨_, hfields, by omega, rfl, by omega⟩

/-! ### ATTROFF and ATTRADDR (R73) -/

theorem attrOff_eq_fields {y : BitVec 8} (ax : BitVec 5) (h : y.toNat ≤ 191) :
    attrOff y ax = .next (y.extractLsb' 3 5 ++ ax) := by
  refine attrOff_eq_next.2 ⟨h, ?_⟩
  rw [toNat_append_add, toNat_extract]
  omega

theorem attrAddr_eq_fields {y : BitVec 8} (ax : BitVec 5) (h : y.toNat ≤ 191) :
    attrAddr y ax = .next (0b110#3 ++ y.extractLsb' 3 5 ++ ax) := by
  refine attrAddr_eq_next.2 ⟨h, ?_⟩
  rw [toNat_append_add, toNat_append_add, toNat_extract, BitVec.toNat_ofNat]
  omega

theorem attrOff_of_lt {y : BitVec 8} (ax : BitVec 5) (h : 191 < y.toNat) :
    attrOff y ax = .refused (.rowOutsideDomain y) := onRow_of_lt h

theorem attrAddr_of_lt {y : BitVec 8} (ax : BitVec 5) (h : 191 < y.toNat) :
    attrAddr y ax = .refused (.rowOutsideDomain y) := by
  rw [attrAddr, attrOff_of_lt ax h, andThen_refused]

/-- Settles O4: both functions by their fields, and the numbers by their rules. -/
theorem attrOffGivesTheAttributeOffset : Obligations.AttrOffGivesTheAttributeOffset := by
  intro y ax
  refine ⟨fun hy => ?_, fun hy => ⟨attrOff_of_lt ax hy, attrAddr_of_lt ax hy⟩⟩
  obtain ⟨-, hoff⟩ := attrOff_eq_next.1 (attrOff_eq_fields ax hy)
  obtain ⟨-, haddr⟩ := attrAddr_eq_next.1 (attrAddr_eq_fields ax hy)
  have hax := ax.isLt
  exact ⟨_, _, attrOff_eq_fields ax hy, attrAddr_eq_fields ax hy, hoff, rfl, by omega, by omega, rfl⟩

/-! ### The bijection (R74) -/

/-- The line m holds row INTERLEAVE(m), as INTERLEAVE is its own inverse. -/
theorem bitmapOff_of_line {m y : BitVec 8} (h : interleave m = .next y) (ax : BitVec 5) :
    bitmapOff y ax = .next (m ++ ax) :=
  bitmapOff_eq_next_append.2 ⟨m, interleave_symm h, rfl⟩

/-- Every offset of the bitmap is AT of the row and the column in its own fields (R74 point 1). -/
theorem bitmapOff_surjective {a : BitVec 13} (h : a.toNat ≤ 6143) :
    ∃ y, interleave (a.extractLsb' 5 8) = .next y ∧ bitmapOff y (a.extractLsb' 0 5) = .next a := by
  have hline : (a.extractLsb' 5 8).toNat ≤ 191 := by rw [toNat_extract]; omega
  have hsplit : a.extractLsb' 5 8 ++ a.extractLsb' 0 5 = a :=
    BitVec.eq_of_toNat_eq (by rw [toNat_append_add, toNat_extract, toNat_extract]; omega)
  have hy := interleave_of_le hline
  exact ⟨_, hy, by rw [bitmapOff_of_line hy, hsplit]⟩

/-- One offset comes from one line and one column, and one line from one row (R74 point 1). -/
theorem bitmapOff_injective {y y' : BitVec 8} {ax ax' : BitVec 5} {a : BitVec 13} (h : bitmapOff y ax = .next a)
    (h' : bitmapOff y' ax' = .next a) : y = y' ∧ ax = ax' := by
  obtain ⟨m, hm, rfl⟩ := bitmapOff_eq_next_append.1 h
  obtain ⟨m', hm', happend⟩ := bitmapOff_eq_next_append.1 h'
  obtain rfl : m = m' := by
    simpa only [BitVec.extractLsb'_append_eq_left] using congrArg (BitVec.extractLsb' 5 8) happend
  have hcol : ax = ax' := by
    simpa only [BitVec.extractLsb'_append_eq_right] using congrArg (BitVec.extractLsb' 0 5) happend
  have hrow := (interleave_symm hm).symm.trans (interleave_symm hm')
  exact ⟨Host.Outcome.next.inj hrow, hcol⟩

/-- ATTROFF takes one value on the eight rows of one band and nowhere else (R74 point 2). -/
theorem attrOff_eq_next_iff_band {o : BitVec 10} {y : BitVec 8} {ax : BitVec 5} (ho : o.toNat ≤ 767) :
    attrOff y ax = .next o ↔ y.toNat / 8 = o.toNat / 32 ∧ ax.toNat = o.toNat % 32 := by
  have hax := ax.isLt
  rw [attrOff_eq_next]
  omega

/-- The bitmap lies below the attributes, and these below 6912 (R74 point 3). -/
theorem bitmapOff_lt_attrAddr {y y' : BitVec 8} {ax ax' : BitVec 5} {a b : BitVec 13} (ha : bitmapOff y ax = .next a)
    (hb : attrAddr y' ax' = .next b) : a.toNat < b.toNat ∧ b.toNat < 6912 := by
  obtain ⟨hy, hanum⟩ := bitmapOff_eq_next.1 ha
  obtain ⟨hy', hbnum⟩ := attrAddr_eq_next.1 hb
  have hax := ax.isLt
  have hax' := ax'.isLt
  omega

/-- Settles O5, point by point. -/
theorem translationIsABijection : Obligations.TranslationIsABijection := by
  refine ⟨fun _ => bitmapOff_surjective, fun _ _ _ _ _ => bitmapOff_injective, fun _ _ _ => attrOff_eq_next_iff_band,
    fun _ _ _ _ _ _ => bitmapOff_lt_attrAddr, fun m ax hm => ?_⟩
  have hy := interleave_of_le hm
  refine ⟨_, _, hy, bitmapOff_of_line hy ax, ?_⟩
  rw [toNat_append_add]
  omega

/-! ### ATTRADDR from the pixel address (R75) -/

/-- The fields of a pixel address: the row's third, the row's band within the third, and the column. -/
theorem bitmapOff_fields {y : BitVec 8} {ax : BitVec 5} {a : BitVec 13} (h : bitmapOff y ax = .next a) :
    a.extractLsb' 11 2 = y.extractLsb' 6 2 ∧ a.extractLsb' 5 3 = y.extractLsb' 3 3 ∧ a.extractLsb' 0 5 = ax := by
  obtain ⟨m, hm, rfl⟩ := bitmapOff_eq_next_append.1 h
  obtain ⟨-, rfl⟩ := interleave_eq_next.1 hm
  refine ⟨?_, ?_, BitVec.extractLsb'_append_eq_right⟩
  · rw [BitVec.extractLsb'_append_eq_of_le (by decide), interleaveBits, BitVec.append_assoc]
    exact BitVec.extractLsb'_append_eq_left
  · rw [BitVec.extractLsb'_append_eq_of_le (by decide), interleaveBits]
    exact BitVec.extractLsb'_append_eq_right

/-- Settles O6: the third and the band stand in both addresses, only the row's line within the band is dropped. -/
theorem attributeAddressFromPixelAddress : Obligations.AttributeAddressFromPixelAddress := by
  intro y ax a b ha hb
  obtain ⟨hthird, hband, hcol⟩ := bitmapOff_fields ha
  obtain ⟨hy, -⟩ := attrAddr_eq_next.1 hb
  have hsplit : y.extractLsb' 6 2 ++ y.extractLsb' 3 3 = y.extractLsb' 3 5 :=
    BitVec.extractLsb'_append_extractLsb'_eq_extractLsb' rfl
  have hfields := hb.symm.trans (attrAddr_eq_fields ax hy)
  rw [hthird, hband, hcol, Host.Outcome.next.inj hfields, ← hsplit, BitVec.append_assoc (x₃ := y.extractLsb' 3 3)]
  rfl

end Sys2Proof.Proofs
end

section
/-! PROOFS. The family 41_color_mapper.md: the pair of indices of an attribute byte (R80) and what it tells of the byte
(R81). -/

namespace Sys2Proof.Proofs

open Sys2Proof.Machine

/-- The bright bit stands above the paper colour: PAPER's high bit is the one INK shares (R80). -/
theorem paperIndex_toNat_bright (attr : Byte) :
    (paperIndex attr).toNat = 8 * (attr.toNat / 64 % 2) + attr.toNat / 8 % 8 := by
  rw [paperIndex_toNat]
  omega

/-- The pair tells bits 6:0 of the byte and nothing of the flash bit: INK tells bits 6 and 2:0, PAPER bits 6:3 (R81). -/
theorem indices_eq_iff (a b : Byte) :
    inkIndex a = inkIndex b ∧ paperIndex a = paperIndex b ↔ a.toNat % 128 = b.toNat % 128 := by
  rw [← BitVec.toNat_inj, ← BitVec.toNat_inj, inkIndex_toNat, inkIndex_toNat, paperIndex_toNat, paperIndex_toNat]
  omega

/-- Settles O9: the two indices as numbers, and from these what the pair tells of the byte. -/
theorem colorMapByFields : Obligations.ColorMapByFields :=
  ⟨fun attr => ⟨paperIndex_toNat attr, inkIndex_toNat attr, paperIndex_toNat_bright attr⟩, indices_eq_iff⟩

end Sys2Proof.Proofs
end

section
/-! PROOFS. The family 42_pixel_decoder_packer.md: the two pixels of a PACK (R90 to R92) and the eight pixels of a STRIP
(R93). -/

namespace Sys2Proof.Proofs

open Sys2Proof.Machine

/-- Settles O10: the two nibbles of `packByte_eq` as one number. -/
theorem packPlacesTwoPixels : Obligations.PackPlacesTwoPixels := by
  intro pix ink paper i
  refine ⟨rfl, group_eq_field pix i, rfl, rfl, ?_⟩
  rw [packByte_eq, toNat_append_add, Nat.mul_comm]
  rfl

/-- Pixel j of a strip, j = 0 leftmost: c(j) = SEL(pix[7-j], ink, paper) with the indices of CM (R93). -/
def stripPixel (pix attr : Byte) (j : Nat) : Nib := sel (pix.getLsbD (7 - j)) (inkIndex attr) (paperIndex attr)

/-- With the indices of CM, PACK at group i is the pixels 2i and 2i+1 of the strip (R92, R93). -/
theorem packByte_eq_stripPixels (pix attr : Byte) (i : BitVec 2) :
    packByte pix (inkIndex attr) (paperIndex attr) i =
      stripPixel pix attr (2 * i.toNat) ++ stripPixel pix attr (2 * i.toNat + 1) := by
  rw [packByte_eq, stripPixel, stripPixel, show 7 - (2 * i.toNat + 1) = 6 - 2 * i.toNat by omega]
  rfl

/-- STRIP's bytes are the pixels two by two, from left to right (R93). -/
theorem strip_eq_stripPixels (pix attr : Byte) :
    strip pix attr =
      [stripPixel pix attr 0 ++ stripPixel pix attr 1, stripPixel pix attr 2 ++ stripPixel pix attr 3,
       stripPixel pix attr 4 ++ stripPixel pix attr 5, stripPixel pix attr 6 ++ stripPixel pix attr 7] := by
  simp only [strip, packByte_eq_stripPixels]
  rfl

/-- Byte i of STRIP is the PACK of group i (R93). -/
theorem strip_getElem?_group (pix attr : Byte) (i : BitVec 2) :
    (strip pix attr)[i.toNat]? = some (packByte pix (inkIndex attr) (paperIndex attr) i) := by
  rw [strip_getElem? pix attr i.isLt, BitVec.ofNat_toNat, BitVec.setWidth_eq, pixelByte]

/-- Settles O11: the nibbles are the strip's pixels `stripPixel`, two to each PACK. -/
theorem stripIsEightPixels : Obligations.StripIsEightPixels := fun pix attr =>
  ⟨stripPixel pix attr, fun _ _ => rfl, strip_eq_stripPixels pix attr, strip_getElem?_group pix attr⟩

end Sys2Proof.Proofs
end

section
/-! PROOFS. The family 43_row_assembler.md: what EMIT.PIX does (R101, R102), the frame of the sequencer steps and of START
and NOP, where a pixel stands in the output (R103), and what of SRC can show there (R104, R105). -/

namespace Sys2Proof.Proofs

open Sys2Proof.Machine

/-! ### EMIT.PIX (R101, R102) -/

/-- After the latching of a strip's bytes the latches hold them, and only the record of the fetch has changed besides. -/
theorem latchStrip_of_stripBytes {s : State} {a p : Byte} (hb : stripBytes s = .next (a, p)) (o : List Byte) :
    latchStrip a p { s with out := o } =
      { s with out := o, attr := a, pix := p, fetched := (latchStrip a p s).fetched } := by
  by_cases h0 : s.i = 0#2
  · rw [latchStrip_fetch h0]
    exact latchStrip_fetch h0
  · obtain ⟨rfl, rfl⟩ := (if_neg h0).mp (stripBytes_eq_next.1 hb)
    rw [latchStrip_inside h0]
    exact latchStrip_inside h0

/-- The two bytes R101 names, by where IDX stands: the two locations of SRC at I = 0, the latches inside the strip. -/
theorem stripBytes_of_bytes {s : State} {y : Nat} {a p : Byte} (hidx : s.idx.toNat ≤ 24575)
    (hy : y = 191 - s.idx.toNat / 128)
    (hsrc : s.idx.toNat % 4 = 0 → s.src.lookup (6144 + 32 * (y / 8) + s.idx.toNat / 4 % 32) = some a ∧
      s.src.lookup (2048 * (y / 64) + 256 * (y % 8) + 32 * (y / 8 % 8) + s.idx.toNat / 4 % 32) = some p)
    (hlatch : s.idx.toNat % 4 ≠ 0 → s.attr = a ∧ s.pix = p) : stripBytes s = .next (a, p) := by
  by_cases h0 : s.idx.toNat % 4 = 0
  · obtain ⟨ha, hp⟩ := hsrc h0
    rw [stripBytes_at_fetch hidx h0 hy rfl rfl, memRead_some (by omega) ha, andThen_next, memRead_some (by omega) hp,
      andThen_next]
  · obtain ⟨rfl, rfl⟩ := hlatch h0
    exact stripBytes_inside h0

/-- Settles O20: the strip's two bytes are at hand, so the step is `emit` of their PACK, and the sink decides. -/
theorem emitPixEmitsAPixelByte : Obligations.EmitPixEmitsAPixelByte := by
  rintro s _ _ _ y a p hs hp hidx rfl rfl rfl hy hsrc hlatch
  have hb := stripBytes_of_bytes hidx hy hsrc hlatch
  have hgroup : s.i = BitVec.ofNat 2 (s.idx.toNat % 4) := by
    rw [← i_toNat, BitVec.ofNat_toNat, BitVec.setWidth_eq]
  have hexec := exec_emitPix_selected hs hp hidx
  rw [hb, andThen_next] at hexec
  refine ⟨(latchStrip a p s).fetched, fun hsink => ?_, fun hsink => ?_⟩
  · rw [hexec, emit_accepted (by rwa [pos_pix hp]), latchStrip_of_stripBytes hb, ← hgroup]
    split
    · next hlast => exact congrArg _ (advance_last hlast)
    · next hlast => exact congrArg _ (advance_within hlast)
  · rw [hexec, emit_refused (by rwa [pos_pix hp])]
    rfl

/-- Settles O21: after an accepted byte the state is the advance of the latching, which records at I = 0 alone. -/
theorem emitPixRecordsItsFetch : Obligations.EmitPixRecordsItsFetch := by
  intro s t h hrun
  obtain ⟨-, -, -, a, p, hb, ht⟩ := execEmitPix_cases h
  rcases emit_cases ht.symm with ⟨-, rfl⟩ | ⟨-, rfl⟩
  · rw [latchStrip_of_stripBytes hb, advance_fetched, advance_attr, advance_pix]
    refine ⟨fun h0 => ?_, fun h0 => ?_⟩
    · rw [latchStrip_fetch ((i_eq_zero_iff s).2 h0)]
    · rw [stripBytes_inside h0] at hb
      cases hb
      rw [latchStrip_inside (mt (i_eq_zero_iff s).1 h0)]
      exact ⟨rfl, rfl, rfl⟩
  · cases hrun

/-! ### The frame of the sequencer steps, START and NOP -/

/-- What these operations keep: the surroundings, the model's records of a unit and of the resets, and, unless the
operation is the one that fetches, the latches and the record of their fetch. -/
structure Frame (fetches : Prop) (s t : State) : Prop where
  surroundings : s.sameSurroundings t
  unitOut : t.unitOut = s.unitOut
  resets : t.resets = s.resets
  latches : ¬ fetches → t.attr = s.attr ∧ t.pix = s.pix ∧ t.fetched = s.fetched

theorem Frame.mono {c d : Prop} {s t : State} (hcd : c → d) (h : Frame c s t) : Frame d s t :=
  { h with latches := fun hd => h.latches (mt hcd hd) }

theorem advance_frame {fetches : Prop} {s u : State} (last : Nat) (q : Phase) (h : Frame fetches s u) :
    Frame fetches s (advance last q u) := by
  obtain ⟨⟨hin, hsink⟩, hunit, hresets, hlatches⟩ := h
  refine ⟨⟨by rwa [advance_inputs], by rwa [advance_sinkFails]⟩, by rwa [advance_unitOut], by rwa [advance_resets], ?_⟩
  rwa [advance_attr, advance_pix, advance_fetched]

/-- The latching is kept out of the frame by the condition it is under (R101, R102). -/
theorem latchStrip_frame (a p : Byte) (o : List Byte) (s : State) :
    Frame (s.idx.toNat % 4 = 0) s (latchStrip a p { s with out := o }) := by
  refine ⟨⟨latchStrip_inputs .., latchStrip_sinkFails ..⟩, latchStrip_unitOut .., latchStrip_resets .., fun h0 => ?_⟩
  rw [latchStrip_inside (s := { s with out := o }) (mt (i_eq_zero_iff s).1 h0)]
  exact ⟨rfl, rfl, rfl⟩

/-- An emitting step keeps what its commit keeps, since a fault writes ST and CAUSE alone (R37, R139). -/
theorem emit_frame {fetches : Prop} {b : Byte} {commit : State → State} {s : State}
    (h : Frame fetches s (commit { s with out := s.out ++ [b] })) : Frame fetches s (emit b commit s) := by
  rcases emit_cases (t := emit b commit s) rfl with ⟨-, e⟩ | ⟨-, e⟩
  · rwa [e]
  · rw [e]
    exact ⟨⟨rfl, rfl⟩, rfl, rfl, fun _ => ⟨rfl, rfl, rfl⟩⟩

/-- Of the sequencer steps only EMIT.PIX at I = 0 fetches (R101, R115, R116, R117). -/
theorem exec_phase_frame {i : Instr} {s t : State} (hi : i.space = .phase) (h : exec i s = .next t) :
    Frame (i = .emitPix ∧ s.idx.toNat % 4 = 0) s t := by
  cases i <;> cases hi
  case emitHdr =>
    obtain ⟨-, -, -, b, -, rfl⟩ := execEmitHdr_cases h
    exact emit_frame (advance_frame _ _ ⟨⟨rfl, rfl⟩, rfl, rfl, fun _ => ⟨rfl, rfl, rfl⟩⟩)
  case emitPal =>
    obtain ⟨-, -, -, b, -, rfl⟩ := execEmitPal_cases h
    exact emit_frame (advance_frame _ _ ⟨⟨rfl, rfl⟩, rfl, rfl, fun _ => ⟨rfl, rfl, rfl⟩⟩)
  case emitPix =>
    obtain ⟨-, -, -, a, p, -, rfl⟩ := execEmitPix_cases h
    exact Frame.mono (fun h0 => ⟨rfl, h0⟩) (emit_frame (advance_frame _ _ (latchStrip_frame a p _ s)))
  case endRun =>
    obtain ⟨-, -, rfl⟩ := execEndRun_cases h
    exact ⟨⟨rfl, rfl⟩, rfl, rfl, fun _ => ⟨rfl, rfl, rfl⟩⟩

/-- A sequencer step that raises no fault keeps CAUSE. -/
theorem exec_phase_cause {i : Instr} {s t : State} (hi : i.space = .phase) (h : exec i s = .next t)
    (hst : t.st ≠ .fault) : t.cause = s.cause := by
  obtain ⟨-, he | rfl | ⟨-, rfl⟩⟩ := exec_phase_cases hi h
  · exact he.cause
  · exact absurd rfl hst
  · rfl

/-- START fetches nothing (R126). -/
theorem execStart_frame {fetches : Prop} {n : Nat} {s t : State} (h : execStart n s = .next t) : Frame fetches s t := by
  rcases execStart_cases h with ⟨-, rfl⟩ | ⟨-, -, rfl⟩ | ⟨-, -, rfl⟩ <;>
    exact ⟨⟨rfl, rfl⟩, rfl, rfl, fun _ => ⟨rfl, rfl, rfl⟩⟩

/-- Settles O25: SRC is RESET's and the host's alone; the rest by the three kinds of operation. -/
theorem sequencerAndStartFrame : Obligations.SequencerAndStartFrame := by
  intro i s t hi h
  have hsrc : t.src = s.src := by
    rcases exec_src h with hsrc | ⟨b, rfl, -⟩
    · exact hsrc
    · obtain hi | hi | ⟨n, hi⟩ := hi <;> cases hi
  have hframe : Frame (i = .emitPix ∧ s.idx.toNat % 4 = 0) s t ∧
      (t.st ≠ .fault → (∀ n, i ≠ .start n) → t.cause = s.cause) := by
    obtain hi | rfl | ⟨n, rfl⟩ := hi
    · exact ⟨exec_phase_frame hi h, fun hst _ => exec_phase_cause hi h hst⟩
    · cases h
      exact ⟨⟨⟨rfl, rfl⟩, rfl, rfl, fun _ => ⟨rfl, rfl, rfl⟩⟩, fun _ _ => rfl⟩
    · exact ⟨execStart_frame h, fun _ hn => absurd rfl (hn n)⟩
  obtain ⟨⟨hsur, hunit, hresets, hlatches⟩, hcause⟩ := hframe
  exact ⟨fun a => by rw [hsrc], hsur, hunit, hresets, hlatches, hcause⟩

/-! ### Where a pixel stands (R103) -/

/-- The strip at file row 191 - y and column x / 8 is the strip of the pixel (x, y). -/
theorem pixDataByte_of_pixel (src : Memory) {x y : BitVec 8} (hy : y.toNat ≤ 191) :
    pixDataByte src (128 * (191 - y.toNat) + x.toNat / 2) =
      andThen (fetchAttr src y (x.extractLsb' 3 5)) fun a =>
      andThen (fetchPix src y (x.extractLsb' 3 5)) fun b =>
        .next (pixelByte a b (BitVec.ofNat 2 (x.toNat / 2 % 4))) := by
  have hx := x.isLt
  have hrow : 191#8 - BitVec.ofNat 8 (191 - y.toNat) = y := by
    have hk : (BitVec.ofNat 8 (191 - y.toNat)).toNat = 191 - y.toNat := fileRow_toNat (by omega)
    apply BitVec.eq_of_toNat_eq
    rw [flip_toNat (by omega), hk]
    omega
  have hcol : BitVec.ofNat 5 (x.toNat / 8) = x.extractLsb' 3 5 := by
    apply BitVec.eq_of_toNat_eq
    rw [toNat_extract, BitVec.toNat_ofNat]
    omega
  have hpos : 128 * (191 - y.toNat) + x.toNat / 2 =
      128 * (191 - y.toNat) + (4 * (x.toNat / 8) + x.toNat / 2 % 4) := by omega
  rw [hpos, pixDataByte_at src (by omega) (by omega) (by omega), hrow, hcol]

/-- The byte of a pixel holds it in the half its parity names, the left pixel high (R92, R103). -/
theorem stripPixel_in_pixelByte (a b : Byte) (x : Nat) :
    stripPixel b a (x % 8) =
      if x % 2 = 0 then (pixelByte a b (BitVec.ofNat 2 (x / 2 % 4))).extractLsb' 4 4
      else (pixelByte a b (BitVec.ofNat 2 (x / 2 % 4))).extractLsb' 0 4 := by
  have hgroup : (BitVec.ofNat 2 (x / 2 % 4)).toNat = x / 2 % 4 := Nat.mod_eq_of_lt (Nat.mod_lt _ (by decide))
  rw [pixelByte, packByte_eq_stripPixels, hgroup]
  split
  · rw [BitVec.extractLsb'_append_eq_left]
    congr 1
    omega
  · rw [BitVec.extractLsb'_append_eq_right]
    congr 1
    omega

/-- Settles O55: the pixel's position names its strip, and its parity its half of the byte. -/
theorem pixelsStandWhereTheFormatPutsThem : Obligations.PixelsStandWhereTheFormatPutsThem := by
  intro src x y hl hy
  obtain ⟨a, b, ha, hb⟩ := fetch_of_loaded hl hy (x.extractLsb' 3 5)
  refine ⟨stripPixel b a (x.toNat % 8), pixelByte a b (BitVec.ofNat 2 (x.toNat / 2 % 4)), ?_, ?_,
    stripPixel_in_pixelByte a b x.toNat⟩
  · rw [pixelIndex, ha, andThen_next, hb, andThen_next, stripPixel]
  · rw [Nat.add_assoc, fileByte_pix, pixDataByte_of_pixel src hy, ha, andThen_next, hb, andThen_next]

/-! ### What of SRC a byte of the output can show (R104, R105) -/

theorem andThen_congr {α β : Type} {x : Result α} {f g : α → Result β} (h : ∀ a, x = .next a → f a = g a) :
    andThen x f = andThen x g := by
  cases x with
  | next a => exact h a rfl
  | fault r => rfl
  | refused r => rfl

theorem andThen_assoc {α β γ : Type} (x : Result α) (f : α → Result β) (g : β → Result γ) :
    andThen (andThen x f) g = andThen x fun a => andThen (f a) g := by
  cases x <;> rfl

/-- Two SRCs that read alike at strip (y, ax): one pixel byte, and one attribute byte but for the flash bit. A location
may hold no value in both. -/
structure SameStrip (src src' : Memory) (y : BitVec 8) (ax : BitVec 5) : Prop where
  attr : ∀ a, attrAddr y ax = .next a →
    (src'.lookup a.toNat).map (fun b => b &&& 0x7F#8) = (src.lookup a.toNat).map (fun b => b &&& 0x7F#8)
  pix : ∀ a, bitmapOff y ax = .next a → src'.lookup a.toNat = src.lookup a.toNat

theorem and_7F_toNat (b : Byte) : (b &&& 0x7F#8).toNat = b.toNat % 128 := by
  rw [BitVec.toNat_and]
  exact Nat.and_two_pow_sub_one_eq_mod b.toNat 7

/-- The flash bit does not reach the packed byte (R81, R101). -/
theorem pixelByte_and_7F (a p : Byte) (i : BitVec 2) : pixelByte (a &&& 0x7F#8) p i = pixelByte a p i := by
  obtain ⟨hink, hpaper⟩ := (indices_eq_iff (a &&& 0x7F#8) a).2 (by rw [and_7F_toNat, Nat.mod_mod])
  rw [pixelByte, pixelByte, hink, hpaper]

/-- A use that does not see the flash bit answers alike on two locations that differ in it alone. -/
theorem memRead_flash_congr {β : Type} {m m' : Memory} {x : Nat} {f : Byte → Result β}
    (hf : ∀ b, f (b &&& 0x7F#8) = f b)
    (h : (m'.lookup x).map (fun b => b &&& 0x7F#8) = (m.lookup x).map (fun b => b &&& 0x7F#8)) :
    andThen (memRead m' x) f = andThen (memRead m x) f := by
  rcases Nat.lt_or_ge x 6912 with hx | hx
  · cases hm : m.lookup x with
    | none =>
      rw [hm, Option.map_none, Option.map_eq_none_iff] at h
      rw [memRead_none hx hm, memRead_none hx h]
    | some b =>
      rw [hm] at h
      obtain ⟨b', hm', hmask⟩ := Option.map_eq_some_iff.1 h
      rw [memRead_some hx hm, memRead_some hx hm', andThen_next, andThen_next]
      calc f b' = f (b' &&& 0x7F#8) := (hf b').symm
        _ = f (b &&& 0x7F#8) := congrArg f hmask
        _ = f b := hf b
  · rw [memRead_past_end hx, memRead_past_end hx]

/-- The pixel-data byte at p reads one strip, that of its row and column (R103). -/
theorem pixDataByte_congr {src src' : Memory} {p : Nat}
    (h : ∀ y, flipRow (BitVec.ofNat 8 (p >>> 7)) = .next y → SameStrip src src' y (BitVec.ofNat 5 (p >>> 2))) :
    pixDataByte src' p = pixDataByte src p := by
  refine andThen_congr fun y hy => ?_
  obtain ⟨hattr, hpix⟩ := h y hy
  have hfetch : fetchPix src' y (BitVec.ofNat 5 (p >>> 2)) = fetchPix src y (BitVec.ofNat 5 (p >>> 2)) :=
    andThen_congr fun a ha => memRead_congr (hpix a ha)
  rw [hfetch, fetchAttr, fetchAttr, andThen_assoc, andThen_assoc]
  exact andThen_congr fun a ha => memRead_flash_congr (fun b => by simp only [pixelByte_and_7F]) (hattr a ha)

/-- Two SRCs alike at every strip give one output, at every position. -/
theorem fileByte_congr {src src' : Memory} (h : ∀ y ax, SameStrip src src' y ax) (n : Nat) :
    fileByte src' n = fileByte src n := by
  unfold fileByte
  rw [pixDataByte_congr fun y _ => h y _]

/-- The ROMs hold nothing of SRC (R119). -/
theorem fileByte_rom (src src' : Memory) {n : Nat} (h : n < 118) : fileByte src' n = fileByte src n := by
  rw [fileByte, fileByte, if_pos (c := n < Config.pixOffset) h, if_pos (c := n < Config.pixOffset) h]

/-- A byte of the file shows nothing of SRC but the strip whose four bytes it stands among (R103, R118). -/
theorem fileByte_congr_of_strip {src src' : Memory} {n : Nat} (hn : n < 24694)
    (h : ∀ y ax, y.toNat ≤ 191 → 118 + 128 * (191 - y.toNat) + 4 * ax.toNat ≤ n →
      n ≤ 118 + 128 * (191 - y.toNat) + 4 * ax.toNat + 3 → SameStrip src src' y ax) :
    fileByte src' n = fileByte src n := by
  rcases Nat.lt_or_ge n 118 with hrom | hpix
  · exact fileByte_rom src src' hrom
  · obtain ⟨p, rfl⟩ := Nat.exists_eq_add_of_le hpix
    rw [fileByte_pix, fileByte_pix]
    refine pixDataByte_congr fun y hy => ?_
    obtain ⟨-, hrow⟩ := flipRow_eq_next.1 hy
    have hcol : (BitVec.ofNat 5 (p >>> 2)).toNat = p / 4 % 32 := by
      rw [BitVec.toNat_ofNat, Nat.shiftRight_eq_div_pow]
    rw [BitVec.toNat_ofNat, Nat.shiftRight_eq_div_pow] at hrow
    apply h <;> omega

/-- Settles O51: the byte shows one strip, and neither address of another strip is the changed one; strips of one band
and column share their attribute address. -/
theorem eachSrcByteShowsInItsOwnStrips : Obligations.EachSrcByteShowsInItsOwnStrips := by
  intro src src' y ax a n hn hsame
  refine ⟨fun ha hout => ?_, fun ha hout => ?_⟩
  · refine fileByte_congr_of_strip hn fun y' ax' _ hfirst hlast => ⟨fun b hb => ?_, fun b hb => hsame _ fun hba => ?_⟩
    · have hlt := (bitmapOff_lt_attrAddr ha hb).1
      rw [hsame _ (by omega)]
    · obtain rfl := BitVec.eq_of_toNat_eq hba
      obtain ⟨rfl, rfl⟩ := bitmapOff_injective hb ha
      omega
  · refine fileByte_congr_of_strip hn fun y' ax' _ hfirst hlast => ⟨fun b hb => ?_, fun b hb => hsame _ ?_⟩
    · have hne : b.toNat ≠ a.toNat := by
        obtain ⟨-, hanum⟩ := attrAddr_eq_next.1 ha
        obtain ⟨-, hbnum⟩ := attrAddr_eq_next.1 hb
        have hax := ax.isLt
        have hax' := ax'.isLt
        have hband := hout y'.toNat
        omega
      rw [hsame _ hne]
    · have hlt := (bitmapOff_lt_attrAddr hb ha).1
      omega

/-- Settles O56: below the last file row the strip shown is of another row, whose addresses are all past row 0's. -/
theorem topRowIsTheLastFileRow : Obligations.TopRowIsTheLastFileRow := by
  intro src src' n hsame hn
  refine fileByte_congr_of_strip (by omega) fun y ax _ hfirst _ => ⟨fun b hb => ?_, fun b hb => hsame _ ?_⟩
  · obtain ⟨-, hnum⟩ := attrAddr_eq_next.1 hb
    rw [hsame _ (by omega)]
  · obtain ⟨-, hnum⟩ := bitmapOff_eq_next.1 hb
    omega

/-- Settles O57: at every strip the two dumps have one pixel byte, and attribute bytes alike but for the flash bit. -/
theorem flashBitsDoNotShow : Obligations.FlashBitsDoNotShow := by
  intro src src' n hbitmap hattr
  refine fileByte_congr (fun y ax => ⟨fun b hb => ?_, fun b hb => hbitmap _ ?_⟩) n
  · obtain ⟨hy, hnum⟩ := attrAddr_eq_next.1 hb
    have hax := ax.isLt
    exact hattr _ (by omega) (by omega)
  · obtain ⟨hy, hnum⟩ := bitmapOff_eq_next.1 hb
    have hax := ax.isLt
    omega

end Sys2Proof.Proofs
end

section
/-! PROOFS. The family 44_bitmap_emitter.md: the two ROMs (R112 to R114), the steps EMIT.HDR, EMIT.PAL and END (R115 to
R117), and the run from START to DONE against the closed form of the output (R118, R119). -/

namespace Sys2Proof.Proofs

open Sys2Proof.Machine

/-! ### The ROMs (R112 to R114) -/

/-- Settles O14: the fields of R111 laid out, and each of the 54 indices looked up. -/
theorem headerRomBytes : Obligations.HeaderRomBytes := ⟨by decide, by decide⟩

/-- In pieces of one width, the place of an element is its piece and its place there. -/
theorem getElem?_flatMap_of_width {α β : Type} {f : α → List β} {w j : Nat} (hf : ∀ a, (f a).length = w) (hj : j < w)
    (l : List α) (k : Nat) : (l.flatMap f)[w * k + j]? = l[k]?.bind fun a => (f a)[j]? := by
  induction l generalizing k with
  | nil => rfl
  | cons a l ih =>
    rw [List.flatMap_cons]
    cases k with
    | zero =>
      rw [Nat.mul_zero, Nat.zero_add, List.getElem?_append_left (by rwa [hf])]
      rfl
    | succ k =>
      have hplace : w * (k + 1) + j - w = w * k + j := by rw [Nat.mul_succ]; omega
      rw [List.getElem?_append_right (by rw [hf, Nat.mul_succ]; omega), hf, hplace]
      exact ih k

/-- Byte 4e + c of the palette is byte c of entry e, at any two levels (R114). -/
theorem palBytes_getElem? (lvlN lvlB : Byte) (e : Nib) {c : Nat} (hc : c < 4) :
    (palBytes lvlN lvlB)[4 * e.toNat + c]? = (palEntry lvlN lvlB e)[c]? := by
  rw [palBytes, getElem?_flatMap_of_width (w := 4) (fun _ => rfl) hc,
    List.getElem?_range (n := Config.palEntries) e.isLt, Option.bind_some, BitVec.ofNat_toNat, BitVec.setWidth_eq]

/-- Settles O15: each channel is one byte of its entry. -/
theorem paletteRomByEntries : Obligations.PaletteRomByEntries := by
  refine ⟨palRom_length, ?_⟩
  rintro e _ rfl
  have hbyte : ∀ c < 4, palRom[4 * e.toNat + c]? = (palEntry Config.lvlN Config.lvlB e)[c]? :=
    fun _ => palBytes_getElem? Config.lvlN Config.lvlB e
  exact ⟨hbyte 0 (by decide), hbyte 1 (by decide), hbyte 2 (by decide), hbyte 3 (by decide)⟩

/-- Settles O50: the ROMs spell the first 118 bytes, and they hold nothing of SRC. -/
theorem headerAndPaletteAreConstant : Obligations.HeaderAndPaletteAreConstant := by
  intro src src' n hn
  obtain ⟨l, -, -, hl⟩ := spells_roms src
  obtain ⟨b, -, hb⟩ := hl n hn
  exact ⟨b, hb, (fileByte_rom src src' hn).trans hb⟩

/-! ### EMIT.HDR, EMIT.PAL and END (R115 to R117) -/

/-- A selected step that reads its byte from a ROM: the sink decides between the append with the advance and
WriteError, each as the whole next state. -/
theorem rom_step_emits {i : Instr} {p q : Phase} {last n : Nat} {rom : List Byte} {s : State} (hs : s.st = .run)
    (hp : s.phase = p) (hi : s.idx.toNat ≤ last) (hpos : s.pos = n) (hlen : last < rom.length)
    (h : exec i s = inPhase p last s (andThen (romRead rom s.idx.toNat) fun b => .next (emit b (advance last q) s))) :
    ∃ b, rom[s.idx.toNat]? = some b ∧
      (s.sinkAccepts n = true → exec i s = .next
        (if s.idx.toNat = last then { s with out := s.out ++ [b], phase := q, idx := 0#15 }
          else { s with out := s.out ++ [b], idx := s.idx + 1#15 })) ∧
      (s.sinkAccepts n = false → exec i s = .next { s with st := .fault, cause := .writeError }) := by
  subst hpos
  have hlt : s.idx.toNat < rom.length := by omega
  rw [inPhase_selected hs hp hi, romRead_of_lt hlt, andThen_next] at h
  refine ⟨_, List.getElem?_eq_getElem hlt, fun hsink => ?_, fun hsink => ?_⟩
  · rw [h, emit_accepted hsink]
    rfl
  · rw [h, emit_refused hsink]
    rfl

/-- Settles O18: POS is IDX in phase HDR, and HDR_ROM has a byte for every index up to 53. -/
theorem emitHdrEmitsAHeaderByte : Obligations.EmitHdrEmitsAHeaderByte := fun _ hs hp hi =>
  rom_step_emits hs hp hi (pos_hdr hp) (by rw [hdrRom_length]; decide) rfl

/-- Settles O19: POS is 54 + IDX in phase PAL, and PAL_ROM has a byte for every index up to 63. -/
theorem emitPalEmitsAPaletteByte : Obligations.EmitPalEmitsAPaletteByte := fun _ hs hp hi =>
  rom_step_emits hs hp hi (pos_pal hp) (by rw [palRom_length]; decide) rfl

/-- Settles O23: a selected END is past its one check. -/
theorem endRunSetsDone : Obligations.EndRunSetsDone := fun _ hs hp => if_pos ⟨hs, hp⟩

/-! ### The byte an emitting step appends, as the closed form has it (R103, R118) -/

/-- In a run the two bytes of a strip are SRC's: fetched now, or standing there since they were latched (R38, R101). -/
theorem stripBytes_from_src {s : State} {a p : Byte} (hs : s.st = .run) (hp : s.phase = .pix)
    (hstrip : s.stripStandsInSrc) (hb : stripBytes s = .next (a, p)) :
    ∃ y, flipRow s.k = .next y ∧ fetchAttr s.src y s.ax = .next a ∧ fetchPix s.src y s.ax = .next p := by
  by_cases h0 : s.i = 0#2
  · rwa [stripBytes_eq_next, if_pos h0] at hb
  · rw [stripBytes_eq_next, if_neg h0] at hb
    obtain ⟨rfl, rfl⟩ := hb
    exact hstrip hs hp h0

/-- The strip of the next index still stands in SRC after an accepted byte. -/
theorem emitted_stripStandsInSrc {s t : State} (hs : s.st = .run) (hstrip : s.stripStandsInSrc) (he : Emitted s t) :
    t.stripStandsInSrc := by
  intro _ hp hne
  obtain ⟨hsp, hk, hax, hb, -⟩ := he.strip hp hne
  rw [hk, hax, he.src]
  exact stripBytes_from_src hs hsp hstrip hb

/-- The closed form at IDX is in the terms of the views K, AX and I (R11, R103). -/
theorem pixDataByte_idx (src : Memory) (s : State) :
    pixDataByte src s.idx.toNat =
      andThen (flipRow s.k) fun y => andThen (fetchAttr src y s.ax) fun a => andThen (fetchPix src y s.ax) fun p =>
        .next (pixelByte a p s.i) := rfl

theorem emit_out_of_run {b : Byte} {commit : State → State} {s : State} (hc : ∀ u, (commit u).out = u.out)
    (hrun : (emit b commit s).st = .run) : (emit b commit s).out = s.out ++ [b] := by
  rcases emit_cases (t := emit b commit s) rfl with ⟨-, e⟩ | ⟨-, e⟩
  · rw [e, hc]
  · rw [e] at hrun
    cases hrun

/-- A sequencer step that leaves the machine in RUN has appended the closed form's byte at POS. -/
theorem exec_phase_byte {i : Instr} {s t : State} (hi : i.space = .phase) (h : exec i s = .next t) (hrun : t.st = .run)
    (hstrip : s.stripStandsInSrc) : ∃ b, t.out = s.out ++ [b] ∧ fileByte s.src s.pos = .next b := by
  cases i <;> cases hi
  case emitHdr =>
    obtain ⟨-, hp, hidx, b, hb, rfl⟩ := execEmitHdr_cases h
    refine ⟨b, emit_out_of_run (advance_out _ _) hrun, ?_⟩
    rw [pos_hdr hp, fileByte_hdr _ (by omega), romRead_eq_next, hb]
  case emitPal =>
    obtain ⟨-, hp, hidx, b, hb, rfl⟩ := execEmitPal_cases h
    refine ⟨b, emit_out_of_run (advance_out _ _) hrun, ?_⟩
    rw [pos_pal hp, fileByte_pal _ (by omega), romRead_eq_next, hb]
  case emitPix =>
    obtain ⟨hs, hp, -, a, p, hb, rfl⟩ := execEmitPix_cases h
    refine ⟨pixelByte a p s.i, emit_out_of_run (fun u => by rw [advance_out, latchStrip_out]) hrun, ?_⟩
    obtain ⟨y, hy, ha, hpix⟩ := stripBytes_from_src hs hp hstrip hb
    rw [pos_pix hp, fileByte_pix, pixDataByte_idx, hy, andThen_next, ha, andThen_next, hpix, andThen_next]
  case endRun =>
    obtain ⟨-, -, rfl⟩ := execEndRun_cases h
    cases hrun

/-! ### The run (R118) -/

/-- One step more at the end of a run that has not stopped. -/
theorem run_succ_of_step {M : Host.Core} {k : Nat} {s t u : M.State} (h : M.run k s = .next t)
    (ht : M.step t = .next u) : M.run (k + 1) s = .next u := by
  induction k generalizing s with
  | zero =>
    cases h
    simp only [Host.Core.run, ht]
  | succ k ih =>
    rw [Host.Core.run] at h ⊢
    cases hstep : M.step s with
    | next s' => simp only [hstep] at h ⊢; exact ih h
    | fault r => simp [hstep] at h
    | refused r => simp [hstep] at h

theorem spells_snoc {l : List Byte} {n : Nat} {f : Nat → Result Byte} {b : Byte} (h : Spells (.next l) n f)
    (hb : f n = .next b) : Spells (.next (l ++ [b])) (n + 1) f :=
  spells_append h ⟨[b], rfl, rfl, fun j hj => by
    obtain rfl : j = 0 := Nat.lt_one_iff.1 hj
    exact ⟨b, rfl, hb⟩⟩

/-- `s` is in a run that began at `s₀`, over its SRC and its sink, and has emitted the first `n` bytes of the closed
form. -/
structure HasEmitted (s₀ : State) (n : Nat) (s : State) : Prop where
  st : s.st = .run
  inputs : s.inputs = []
  sinkFails : s.sinkFails = s₀.sinkFails
  src : s.src = s₀.src
  cause : s.cause = .none
  pos : s.pos = n
  inRange : s.idxInRange
  strip : s.stripStandsInSrc
  out : Spells (.next s.out) n (fileByte s₀.src)

/-- START with LEN enough is accepted in IDLE (R126). -/
theorem exec_start_accepted {s : State} {len : Nat} (hs : s.st = .idle) (hlen : 6912 ≤ len) :
    exec (.start len) s = .next (beginRun s) :=
  (if_neg (not_not.2 hs)).trans (if_neg (Nat.not_lt.2 hlen))

/-- An accepted START is the beginning of a run: nothing is emitted yet (R126). -/
theorem beginRun_hasEmitted (s : State) : HasEmitted s 0 (beginRun { s with inputs := [] }) where
  st := rfl
  inputs := rfl
  sinkFails := rfl
  src := rfl
  cause := rfl
  pos := rfl
  inRange := Nat.zero_le 53
  strip := fun _ hp => (nomatch hp)
  out := ⟨[], rfl, rfl, fun j hj => absurd hj (Nat.not_lt_zero j)⟩

theorem step_start {s : State} {len : Nat} (hs : s.st = .idle) (hin : s.inputs = [.command 1#2 len])
    (hlen : 6912 ≤ len) : step s = .next (beginRun { s with inputs := [] }) := by
  rw [step_sampled_command hin (.inl (by decide))]
  exact exec_start_accepted hs hlen

/-- Over a loaded SRC the step of an emitting phase emits, where the sink accepts its position (R37). -/
theorem accepted_step_emits {s : State} (hs : s.st = .run) (hr : s.idxInRange) (hl : s.src.loaded)
    (hp : s.phase ≠ .fin) (hsink : s.sinkAccepts s.pos = true) :
    ∃ t, exec (decodePhase s.phase.code) s = .next t ∧ Emitted s t := by
  obtain ⟨t, ht, ⟨-, hrun, -⟩ | ⟨hrefused, -⟩⟩ := emitting_step_answers hs hr hl hp
  · obtain ⟨-, he | rfl | ⟨hfin, -⟩⟩ := exec_phase_cases (decodePhase_wellFormed_space _).2 ht
    · exact ⟨t, ht, he⟩
    · cases hrun
    · exact absurd hfin hp
  · rw [hsink] at hrefused
    cases hrefused

/-- Over a loaded SRC, a byte that the sink accepts is one more byte of the closed form (R118). -/
theorem step_hasEmitted {s₀ s : State} {n : Nat} (hl : s₀.src.loaded) (hn : n < 24694)
    (hsink : s₀.sinkAccepts n = true) (h : HasEmitted s₀ n s) : ∃ t, step s = .next t ∧ HasEmitted s₀ (n + 1) t := by
  obtain ⟨hst, hin, hfails, hsrc, hcause, hpos, hrange, hstrip, hout⟩ := h
  have hphase : s.phase ≠ .fin := fun hp => by rw [pos_fin hp] at hpos; omega
  have haccept : s.sinkAccepts s.pos = true := by rwa [hpos, State.sinkAccepts, hfails]
  have hspace : (decodePhase s.phase.code).space = .phase := (decodePhase_wellFormed_space _).2
  obtain ⟨t, ht, he⟩ := accepted_step_emits hst hrange (hsrc ▸ hl) hphase haccept
  obtain ⟨⟨hin', hfails'⟩, -, -, -⟩ := exec_phase_frame hspace ht
  obtain ⟨b, houtb, hb⟩ := exec_phase_byte hspace ht he.st hstrip
  rw [hsrc, hpos] at hb
  refine ⟨t, by rw [step_run_no_input hst hin, ht], ?_⟩
  exact {
    st := he.st
    inputs := hin'.trans hin
    sinkFails := hfails'.trans hfails
    src := he.src.trans hsrc
    cause := he.cause.trans hcause
    pos := by rw [he.pos, hpos]
    inRange := he.inRange
    strip := emitted_stripStandsInSrc hst hstrip he
    out := houtb ▸ spells_snoc hout hb }

/-- From START, as many emitting steps as the sink accepts positions emit the closed form so far (R110, R118). -/
theorem run_hasEmitted {s : State} {len n : Nat} (hs : s.st = .idle) (hin : s.inputs = [.command 1#2 len])
    (hlen : 6912 ≤ len) (hl : s.src.loaded) (hn : n ≤ 24694) (hsink : ∀ m, m < n → s.sinkAccepts m = true) :
    ∃ t, Host.Core.run Sys2Proof.core (1 + n) s = .next t ∧ HasEmitted s n t := by
  induction n with
  | zero =>
    exact ⟨_, run_succ_of_step (k := 0) rfl (step_start hs hin hlen), beginRun_hasEmitted s⟩
  | succ n ih =>
    obtain ⟨u, hu, h⟩ := ih (by omega) fun m hm => hsink m (by omega)
    obtain ⟨t, ht, h'⟩ := step_hasEmitted hl (by omega) (hsink n (by omega)) h
    exact ⟨t, run_succ_of_step hu ht, h'⟩

/-- After the last position there is only (END, 0) (R11, R12). -/
theorem at_end_of_pos {s : State} (hr : s.idxInRange) (hpos : s.pos = 24694) : s.phase = .fin ∧ s.idx = 0#15 := by
  cases hp : s.phase with
  | hdr => rw [pos_hdr hp] at hpos; rw [idxInRange_hdr hp] at hr; omega
  | pal => rw [pos_pal hp] at hpos; rw [idxInRange_pal hp] at hr; omega
  | pix => rw [pos_pix hp] at hpos; rw [idxInRange_pix hp] at hr; omega
  | fin => exact ⟨rfl, BitVec.eq_of_toNat_eq ((idxInRange_fin hp).1 hr)⟩

/-- Settles O52: the run emits all 24694 bytes of the closed form, and END closes it with nothing else changed. -/
theorem runFromStartGivesTheFile : Obligations.RunFromStartGivesTheFile := by
  intro s len hs hin hlen hl hsink
  obtain ⟨t, ht, h⟩ := run_hasEmitted hs hin hlen hl le_rfl hsink
  obtain ⟨hphase, hidx⟩ := at_end_of_pos h.inRange h.pos
  have hend : step t = .next { t with st := .done } := by
    rw [step_run_no_input h.st h.inputs, congrArg Phase.code hphase]
    exact endRunSetsDone t h.st hphase
  obtain ⟨_, hout, hlength, hbytes⟩ := h.out
  cases hout
  exact ⟨_, run_succ_of_step ht hend, rfl, h.cause, hphase, hidx, hlength, hbytes⟩

end Sys2Proof.Proofs
end

section
/-! PROOFS. The family 45_control_operations.md: the host's SRC write (R125, R158), START and RESET (R126, R127), and
the run that the sink cuts short (R129). -/

namespace Sys2Proof.Proofs

open Sys2Proof.Machine

/-! ### The host's SRC write (R125, R158) -/

theorem hostWriteSrc_in_run {s : State} (hs : s.st = .run) (addr : BitVec 13) (b : Byte) :
    hostWriteSrc addr b s = .refused .srcWriteDuringRun := if_pos hs

theorem hostWriteSrc_past_end {s : State} {addr : BitVec 13} (hs : s.st ≠ .run) (ha : 6911 < addr.toNat) (b : Byte) :
    hostWriteSrc addr b s = .fault (.noSuchAddress addr.toNat) :=
  (if_neg hs).trans (if_neg (Nat.not_lt.2 ha))

/-- Settles O34: the write is an insert into SRC, which `lookup_insert` reads back; a run and an address past the end
are its two stops. -/
theorem hostWritesSrcOutsideARun : Obligations.HostWritesSrcOutsideARun := by
  intro s addr b rest hin
  rw [step_srcWrite hin]
  refine ⟨fun hs ha hwf => ?_, fun hs => hostWriteSrc_in_run (s := { s with inputs := rest }) hs addr b,
    fun hs ha => hostWriteSrc_past_end (s := { s with inputs := rest }) hs ha b⟩
  have haddr : addr.toNat < 6912 := by omega
  exact ⟨s.src.insert addr.toNat b, hostWriteSrc_eq_next.2 ⟨hs, haddr, rfl⟩, insert_wf hwf haddr,
    lookup_insert s.src addr.toNat b⟩

/-! ### The run that the sink cuts short (R129, R138) -/

/-- Over a loaded SRC, the byte at a position that the sink refuses ends the run in WriteError (R138, R139). -/
theorem step_refused_byte {s₀ s : State} {n : Nat} (hl : s₀.src.loaded) (hn : n < 24694)
    (hsink : s₀.sinkAccepts n = false) (h : HasEmitted s₀ n s) :
    step s = .next { s with st := .fault, cause := .writeError } := by
  have hphase : s.phase ≠ .fin := fun hp => by
    have hpos := h.pos
    rw [pos_fin hp] at hpos
    omega
  have hrefuse : s.sinkAccepts s.pos = false := by rwa [h.pos, State.sinkAccepts, h.sinkFails]
  rw [step_run_no_input h.st h.inputs]
  obtain ⟨t, ht, ⟨haccept, -⟩ | ⟨-, rfl⟩⟩ := emitting_step_answers h.st h.inRange (h.src ▸ hl) hphase
  · rw [hrefuse] at haccept
    cases haccept
  · exact ht

/-- Settles O53: the n bytes before the refused one are emitted as in a completed run, and the fault entry keeps POS. -/
theorem runStopsAtTheFirstRefusedByte : Obligations.RunStopsAtTheFirstRefusedByte := by
  intro s len n hs hin hlen hl hn haccept hrefuse
  obtain ⟨t, ht, h⟩ := run_hasEmitted hs hin hlen hl hn.le haccept
  exact ⟨_, run_succ_of_step ht (step_refused_byte hl hn hrefuse h), rfl, rfl, (pos_congr rfl rfl).trans h.pos⟩

/-! ### START (R126) -/

theorem exec_start_short {s : State} {len : Nat} (hs : s.st = .idle) (hlen : len < 6912) :
    exec (.start len) s = .next (raise .inputLength s) :=
  (if_neg (not_not.2 hs)).trans (if_pos hlen)

theorem exec_start_ignored {s : State} (hs : s.st ≠ .idle) (len : Nat) : exec (.start len) s = .next s := if_pos hs

/-- Settles O27: the three branches of START. -/
theorem startByStateAndLength : Obligations.StartByStateAndLength := fun _ len =>
  ⟨exec_start_accepted, exec_start_short, fun hs => exec_start_ignored hs len⟩

/-! ### RESET (R127) -/

theorem exec_reset (b : BitVec 1) (s : State) : exec (.reset b) s = .next (resetCore s) := rfl

theorem lookup_resetCore (s : State) (a : Nat) : (resetCore s).src.lookup a = none := rfl

/-- Settles O28: one field of `resetCore` after another. -/
theorem resetFromEveryState : Obligations.ResetFromEveryState := fun s b =>
  ⟨resetCore s, exec_reset b s, resetCore_st s, resetCore_phase s, resetCore_idx s, resetCore_cause s,
    lookup_resetCore s, resetCore_out s, ⟨resetCore_inputs s, resetCore_sinkFails s⟩, resetCore_unitOut s⟩

/-- Settles O29: the free values that RESET puts into the latches are numbered by the count of resets alone. -/
theorem resetForgetsTheLatches : Obligations.ResetForgetsTheLatches := by
  intro s s' b b' hcount
  refine ⟨resetCore s, resetCore s', exec_reset b s, exec_reset b' s', ?_, ?_, resetCore_fetched s,
    resetCore_fetched s', resetCore_resets s⟩
  · rw [resetCore_attr, resetCore_attr, hcount]
  · rw [resetCore_pix, resetCore_pix, hcount]

end Sys2Proof.Proofs
end

section
/-! PROOFS. The family 60_exceptions.md: fault entry (R136, R139), the way out of FAULT and DONE (R128, R140), and the
two level outputs (R142). -/

namespace Sys2Proof.Proofs

open Sys2Proof.Machine

/-! ### Fault entry (R136 to R139) -/

/-- A byte that ends in FAULT was refused, since the commit of an accepted byte keeps ST (R37, R138). -/
theorem emit_enters_fault {b : Byte} {commit : State → State} {s : State} (hs : s.st ≠ .fault)
    (hc : ∀ u, (commit u).st = u.st) (hf : (emit b commit s).st = .fault) :
    s.sinkAccepts s.pos = false ∧ emit b commit s = raise .writeError s := by
  rcases emit_cases (t := emit b commit s) rfl with ⟨-, e⟩ | hrefused
  · rw [e, hc] at hf
    exact absurd hf hs
  · exact hrefused

/-- The sequencer steps that can enter FAULT are the emitting ones, on a refused byte (R138). -/
theorem exec_phase_enters_fault {i : Instr} {s t : State} (hi : i.space = .phase) (h : exec i s = .next t)
    (hs : s.st ≠ .fault) (hf : t.st = .fault) :
    (i = .emitHdr ∨ i = .emitPal ∨ i = .emitPix) ∧ s.sinkAccepts s.pos = false ∧ t = raise .writeError s := by
  cases i <;> cases hi
  case emitHdr =>
    obtain ⟨-, -, -, b, -, rfl⟩ := execEmitHdr_cases h
    exact ⟨.inl rfl, emit_enters_fault hs (advance_st _ _) hf⟩
  case emitPal =>
    obtain ⟨-, -, -, b, -, rfl⟩ := execEmitPal_cases h
    exact ⟨.inr (.inl rfl), emit_enters_fault hs (advance_st _ _) hf⟩
  case emitPix =>
    obtain ⟨-, -, -, a, p, -, rfl⟩ := execEmitPix_cases h
    exact ⟨.inr (.inr rfl), emit_enters_fault hs (fun u => by rw [advance_st, latchStrip_st]) hf⟩
  case endRun =>
    obtain ⟨-, -, rfl⟩ := execEndRun_cases h
    cases hf

/-- The two ways into FAULT, each as the fault entry `raise` (R136). -/
theorem exec_enters_fault {i : Instr} {s t : State} (h : exec i s = .next t) (hs : s.st ≠ .fault)
    (hf : t.st = .fault) :
    (∃ n, i = .start n ∧ n < 6912 ∧ s.st = .idle ∧ t = raise .inputLength s) ∨
      ((i = .emitHdr ∨ i = .emitPal ∨ i = .emitPix) ∧ s.sinkAccepts s.pos = false ∧ t = raise .writeError s) := by
  rcases exec_space_cases h with ⟨o, rfl⟩ | hp | ⟨n, rfl, he⟩ | ⟨b, -, rfl⟩ | rfl
  · exact absurd hf hs
  · exact .inr (exec_phase_enters_fault hp h hs hf)
  · rcases execStart_cases he with ⟨-, rfl⟩ | ⟨hidle, hlen, ht⟩ | ⟨-, -, rfl⟩
    · exact absurd hf hs
    · exact .inl ⟨n, rfl, hlen, hidle, ht⟩
    · cases hf
  · cases hf
  · exact absurd hf hs

/-- Settles O40: both ways into FAULT are `raise`, which writes ST and CAUSE. -/
theorem faultEntryIsPrecise : Obligations.FaultEntryIsPrecise := by
  intro i s t h hs hf
  rcases exec_enters_fault h hs hf with ⟨n, hi, hlen, hidle, rfl⟩ | ⟨hi, hsink, rfl⟩
  · exact ⟨rfl, .inl ⟨n, hi, hlen, hidle, rfl⟩⟩
  · exact ⟨rfl, .inr ⟨hi, hsink, rfl⟩⟩

/-! ### The stopped states FAULT and DONE (R128, R140) -/

/-- In a stopped state an operation is RESET, or does nothing, or shows a result on a unit's wires: the sequencer steps
are not selected and START is ignored (R62, R128, R140). -/
theorem exec_stopped_cases {i : Instr} {s t : State} (hs : s.st = .fault ∨ s.st = .done) (h : exec i s = .next t) :
    (∃ b, i = .reset b) ∨ t = s ∨ ∃ o, t = showUnit o s := by
  have hrun : s.st ≠ .run := by rcases hs with hs | hs <;> rw [hs] <;> decide
  have hidle : s.st ≠ .idle := by rcases hs with hs | hs <;> rw [hs] <;> decide
  rcases exec_space_cases h with hshow | hp | ⟨n, -, he⟩ | ⟨b, hi, -⟩ | ht
  · exact .inr (.inr hshow)
  · exact absurd (exec_phase_cases hp h).1 hrun
  · rcases execStart_cases he with ⟨-, ht⟩ | ⟨hi, -⟩ | ⟨hi, -⟩
    · exact .inr (.inl ht)
    · exact absurd hi hidle
    · exact absurd hi hidle
  · exact .inl ⟨b, hi⟩
  · exact .inr (.inl ht)

/-- Settles O41: outside a run the codes select host commands alone, and of these RESET alone acts in FAULT. -/
theorem faultIsLeftByResetOnly : Obligations.FaultIsLeftByResetOnly := by
  intro s hs
  refine ⟨fun c len => ?_, exec_start_ignored (by simp [hs]), fun i t h hi => ?_, fun b => ?_⟩
  · rw [selectOp_command (.inr (by simp [hs]))]
    exact (decodeCmd_wellFormed_space c len).2
  · rcases exec_stopped_cases (.inl hs) h with ⟨b, hb⟩ | rfl | ⟨o, rfl⟩
    · exact absurd hb (hi b)
    · exact ⟨rfl, rfl, rfl, rfl, rfl, rfl, rfl, rfl⟩
    · exact ⟨rfl, rfl, rfl, rfl, rfl, rfl, rfl, rfl⟩
  · exact ⟨resetCore s, exec_reset b s, resetCore_st s, resetCore_phase s, resetCore_idx s, resetCore_cause s⟩

/-- Settles O42: the operation a step runs in a stopped state is a RESET that was sampled, or changes no more than what
a unit shows; a host write and a new sink change none of the parts named. -/
theorem stoppedStatesAreLeftByResetOnly : Obligations.StoppedStatesAreLeftByResetOnly := by
  intro s t hs h hnoReset
  rcases step_exec_cases h with ⟨i, rest, hi, he⟩ | ⟨a, b, rest, -, -, -, rfl⟩ | ⟨fs, rest, rfl⟩
  · rcases exec_stopped_cases (s := { s with inputs := rest }) hs he with ⟨b, rfl⟩ | rfl | ⟨o, rfl⟩
    · obtain ⟨c, n, rest', hin, hc⟩ := sampled_reset hi
      obtain ⟨h2, h3⟩ := hnoReset c n rest' hin
      exact (hc.elim h2 h3).elim
    · exact ⟨rfl, rfl, rfl, rfl, rfl, rfl, rfl, rfl, rfl⟩
    · exact ⟨rfl, rfl, rfl, rfl, rfl, rfl, rfl, rfl, rfl⟩
  · exact ⟨rfl, rfl, rfl, rfl, rfl, rfl, rfl, rfl, rfl⟩
  · exact ⟨rfl, rfl, rfl, rfl, rfl, rfl, rfl, rfl, rfl⟩

/-! ### The level outputs (R142) -/

theorem doneLevel_iff {s : State} : s.doneLevel = true ↔ s.st = .done := decide_eq_true_iff

theorem faultLevel_iff {s : State} : s.faultLevel = true ↔ s.st = .fault := decide_eq_true_iff

/-- The four states of a run have four codes (R13, R60). -/
theorem stCode_injective : Function.Injective St.code := by
  intro a b
  cases a <;> cases b <;> decide

/-- ST is read from its field of STATUS (R60). -/
theorem status_st_iff {s : State} {x : St} : s.status.extractLsb' 0 2 = x.code ↔ s.st = x := by
  rw [State.status, (extract_three_codes _ _ _).1]
  exact stCode_injective.eq_iff

/-- Host writes and new sinks leave ST, so a step that changes it has run an operation. -/
theorem step_changes_st {s t : State} (h : step s = .next t) (hne : t.st ≠ s.st) :
    ∃ i rest, exec i { s with inputs := rest } = .next t := by
  rcases step_exec_cases h with ⟨i, rest, -, he⟩ | ⟨a, b, rest, -, -, -, rfl⟩ | ⟨fs, rest, rfl⟩
  · exact ⟨i, rest, he⟩
  · exact absurd rfl hne
  · exact absurd rfl hne

/-- DONE is entered only from a run in phase END, where the step is END (R62, R117). -/
theorem exec_enters_done {i : Instr} {s t : State} (h : exec i s = .next t) (hs : s.st ≠ .done)
    (hd : t.st = .done) : s.st = .run ∧ s.phase = .fin := by
  rcases exec_space_cases h with ⟨o, rfl⟩ | hp | ⟨n, -, he⟩ | ⟨b, -, rfl⟩ | rfl
  · exact absurd hd hs
  · obtain ⟨hrun, he | rfl | ⟨hfin, -⟩⟩ := exec_phase_cases hp h
    · rw [he.st] at hd
      cases hd
    · cases hd
    · exact ⟨hrun, hfin⟩
  · rcases execStart_cases he with ⟨-, rfl⟩ | ⟨-, -, rfl⟩ | ⟨-, -, rfl⟩
    · exact absurd hd hs
    · cases hd
    · cases hd
  · cases hd
  · exact absurd hd hs

theorem step_enters_done {s t : State} (h : step s = .next t) (hs : s.st ≠ .done) (hd : t.st = .done) :
    s.st = .run ∧ s.phase = .fin := by
  obtain ⟨i, rest, he⟩ := step_changes_st h (by rw [hd]; exact hs.symm)
  exact exec_enters_done (s := { s with inputs := rest }) he hs hd

theorem step_enters_fault {s t : State} (h : step s = .next t) (hs : s.st ≠ .fault) (hf : t.st = .fault) :
    t.cause = .inputLength ∨ t.cause = .writeError := by
  obtain ⟨i, rest, he⟩ := step_changes_st h (by rw [hf]; exact hs.symm)
  rcases exec_enters_fault (s := { s with inputs := rest }) he hs hf with ⟨n, -, -, -, rfl⟩ | ⟨-, -, rfl⟩
  · exact .inl rfl
  · exact .inr rfl

/-- A stopped state is left by a step that samples RESET and by no other (R140). -/
theorem step_leaves_stopped {s t : State} (hs : s.st = .fault ∨ s.st = .done) (h : step s = .next t)
    (hne : t.st ≠ s.st) : ∃ c n rest, s.inputs = .command c n :: rest ∧ (c = 2#2 ∨ c = 3#2) := by
  by_contra hnone
  refine hne (stoppedStatesAreLeftByResetOnly s t hs h fun c n rest hin => ?_).1
  exact ⟨fun hc => hnone ⟨c, n, rest, hin, .inl hc⟩, fun hc => hnone ⟨c, n, rest, hin, .inr hc⟩⟩

/-- Settles O43: a level is ST read in one value, so it rises where that state is entered and falls where it is left. -/
theorem levelOutputsFollowTheRun : Obligations.LevelOutputsFollowTheRun := by
  intro s t h
  simp only [← Bool.not_eq_true, doneLevel_iff, faultLevel_iff]
  refine ⟨(status_st_iff (x := .done)).symm, (status_st_iff (x := .fault)).symm, step_enters_done h,
    step_enters_fault h, ?_⟩
  rintro (⟨hs, ht⟩ | ⟨hs, ht⟩)
  · exact step_leaves_stopped (.inr hs) h (by rwa [hs])
  · exact step_leaves_stopped (.inl hs) h (by rwa [hs])

end Sys2Proof.Proofs
end
